-- ==== Sys2Proof/Word.lean ====
section
/-! DEFINITION. The widths of the hardware (spec 00_scope.md Table R7-T) and the names of its registers and register pairs
(spec 10_state.md R21, R23). -/

namespace Sys2Proof

/-- An 8-bit unsigned value: a register, a memory cell, an opcode, an operand byte (R7, R11). -/
abbrev Byte := BitVec 8

/-- A 16-bit unsigned value: the program counter, the stack pointer, an address (R7, R11). -/
abbrev Word := BitVec 16

/-- The eight general registers, in index order 0 to 7 (R21). `m` is index 6 (R22). -/
inductive Reg where
  | b | c | d | e | h | l | m | a
  deriving DecidableEq, Repr

/-- The four register-pair names, in index order 0 to 3: BC, DE, HL and the stack pointer (R23, R64). -/
inductive Pair where
  | bc | de | hl | sp
  deriving DecidableEq, Repr

end Sys2Proof
end

