-- ==== Sys2Proof/Syntax.lean ====
section
/-! DEFINITION. The instructions: one constructor per row of spec/opcode_table.json, in the table's order, each with the
register fields and the operand bytes its effect uses (spec 30_encoding.md Table R60-T, R69). -/

namespace Sys2Proof

/-- A decoded instruction. `arg1` is the first operand byte (the low one of a 16-bit operand), `arg2` the second (the high
one) (R44, R70). -/
inductive Instr where
  /-- `HLT`, the HALT placeholder (R91). -/
  | hlt
  /-- `MOV d,s` (R90). -/
  | mov (dst src : Reg)
  /-- `MVI r,d8` with `d8 = arg1` (R100). -/
  | mvi (r : Reg) (arg1 : Byte)
  /-- `LXI SP,d16` (R102), the table's `LXI_SP`. -/
  | lxiSp (arg1 arg2 : Byte)
  /-- `LXI rp,d16` with `rp` one of BC, DE, HL (R101). The pair SP is ill-formed here. -/
  | lxi (rp : Pair) (arg1 arg2 : Byte)
  /-- `LDA a16` (R110). -/
  | lda (arg1 arg2 : Byte)
  /-- `STA a16` (R111). -/
  | sta (arg1 arg2 : Byte)
  /-- `UNREC`: the unrecognised opcode byte `op` (R82). -/
  | unrec (op : Byte)
  deriving DecidableEq, Repr

end Sys2Proof
end

