-- ==== Sys2Proof/WellFormed.lean ====
section
/-! DEFINITION. Which instruction terms are instructions of the hardware: `MOV M,M` does not exist (that byte is `HLT`), `LXI`
takes BC, DE or HL only, and `UNREC` is one of 178 bytes (spec 30_encoding.md R63, R64, R66, R68). -/

namespace Sys2Proof

/-- The unrecognised opcode bytes as the ranges that R68 lists, first and last byte of each. -/
def unrecRanges : List (Nat × Nat) :=
  [(0x00, 0x00), (0x02, 0x05), (0x07, 0x0D), (0x0F, 0x0F), (0x10, 0x10), (0x12, 0x15), (0x17, 0x1D), (0x1F, 0x1F),
   (0x20, 0x20), (0x22, 0x25), (0x27, 0x2D), (0x2F, 0x2F), (0x30, 0x30), (0x33, 0x35), (0x37, 0x39), (0x3B, 0x3D),
   (0x3F, 0x3F), (0x80, 0xFF)]

/-- Whether a byte is one of the 178 that R68 lists. -/
def isUnrecByte (op : Byte) : Bool :=
  unrecRanges.any fun r => r.1 ≤ op.toNat && op.toNat ≤ r.2

/-- The term is an instruction of the hardware. -/
def Instr.wf : Instr → Bool
  | .hlt => true
  | .mov dst src => !(dst == .m && src == .m)
  | .mvi _ _ => true
  | .lxiSp _ _ => true
  | .lxi rp _ _ => !(rp == .sp)
  | .lda _ _ => true
  | .sta _ _ => true
  | .unrec op => isUnrecByte op

end Sys2Proof
end

