-- ==== Sys2Proof/Decode.lean ====
section
/-! DEFINITION. The decoder (spec 30_encoding.md R60 to R70), total over all 256 opcode bytes, and after it the encoder, written
from the encoding columns of Table R72-T. -/

namespace Sys2Proof

/-! ### Fields (R62 to R64) -/

/-- `D = op[5:3]`, which is also the field `R` of `MVI` (R62). -/
def fieldD (op : Byte) : BitVec 3 := op.extractLsb' 3 3

/-- `S = op[2:0]` (R62). -/
def fieldS (op : Byte) : BitVec 3 := op.extractLsb' 0 3

/-- `P = op[5:4]` (R62). -/
def fieldP (op : Byte) : BitVec 2 := op.extractLsb' 4 2

/-- The register a 3-bit field selects (R63). -/
def regOfField (f : BitVec 3) : Reg :=
  match f.toNat with
  | 0 => .b
  | 1 => .c
  | 2 => .d
  | 3 => .e
  | 4 => .h
  | 5 => .l
  | 6 => .m
  | _ => .a

/-- The pair a 2-bit field selects (R64). -/
def pairOfField (f : BitVec 2) : Pair :=
  match f.toNat with
  | 0 => .bc
  | 1 => .de
  | 2 => .hl
  | _ => .sp

/-! ### The decode policy (R66) -/

/-- The instruction shape that the opcode byte alone selects (R65). `unrec` keeps the byte. -/
inductive Shape where
  | mov (dst src : Reg)
  | hlt
  | mvi (r : Reg)
  | lxi (rp : Pair)
  | lxiSp
  | lda
  | sta
  | unrec (op : Byte)
  deriving DecidableEq, Repr

/-- Pattern 1, `01DDDSSS`. -/
def isMovePattern (op : Byte) : Bool := op &&& 0xC0#8 == 0x40#8

/-- Pattern 2, `00RRR110`. -/
def isImmediatePattern (op : Byte) : Bool := op &&& 0xC7#8 == 0x06#8

/-- Pattern 3, `00PP0001`. -/
def isPairPattern (op : Byte) : Bool := op &&& 0xCF#8 == 0x01#8

/-- Pattern 4, the exact byte `00111010`. -/
def isLoadPattern (op : Byte) : Bool := op == 0b00111010#8

/-- Pattern 5, the exact byte `00110010`. -/
def isStorePattern (op : Byte) : Bool := op == 0b00110010#8

/-- The classification of an opcode byte: first match wins, then the fall-through (R66). -/
def decodeShape (op : Byte) : Shape :=
  if isMovePattern op then
    let dst := regOfField (fieldD op)
    let src := regOfField (fieldS op)
    if dst = .m ∧ src = .m then .hlt else .mov dst src
  else if isImmediatePattern op then .mvi (regOfField (fieldD op))
  else if isPairPattern op then
    let rp := pairOfField (fieldP op)
    if rp = .sp then .lxiSp else .lxi rp
  else if isLoadPattern op then .lda
  else if isStorePattern op then .sta
  else .unrec op

/-- The number of operand bytes of a shape (Table R60-T). -/
def operandCount : Shape → Nat
  | .mov _ _ => 0
  | .hlt => 0
  | .mvi _ => 1
  | .lxi _ => 2
  | .lxiSp => 2
  | .lda => 2
  | .sta => 2
  | .unrec _ => 0

/-- The instruction of a shape with its two operand bytes; a byte the shape does not use is ignored (R69). -/
def withOperands (sh : Shape) (arg1 arg2 : Byte) : Instr :=
  match sh with
  | .mov dst src => .mov dst src
  | .hlt => .hlt
  | .mvi r => .mvi r arg1
  | .lxi rp => .lxi rp arg1 arg2
  | .lxiSp => .lxiSp arg1 arg2
  | .lda => .lda arg1 arg2
  | .sta => .sta arg1 arg2
  | .unrec op => .unrec op

/-- The instruction that the triple `(op, arg1, arg2)` is to the engine (R60). -/
def decode (op arg1 arg2 : Byte) : Instr := withOperands (decodeShape op) arg1 arg2

/-! ### A stream of instruction bytes (R60) -/

/-- Why a finite stream of bytes gives no instruction. No opcode byte is ever a reason: decoding is total (R66). -/
inductive DecodeError where
  /-- The stream holds no opcode byte. -/
  | noOpcode
  /-- The stream ends before the operand bytes of the opcode (log entry 11). -/
  | missingOperand
  deriving DecidableEq, Repr

/-- The first instruction of a stream of bytes and the rest of the stream. -/
def decodeStream : List Byte → Except DecodeError (Instr × List Byte)
  | [] => .error .noOpcode
  | op :: rest =>
    match operandCount (decodeShape op) with
    | 0 => .ok (decode op 0 0, rest)
    | 1 =>
      match rest with
      | arg1 :: after => .ok (decode op arg1 0, after)
      | [] => .error .missingOperand
    | _ =>
      match rest with
      | arg1 :: arg2 :: after => .ok (decode op arg1 arg2, after)
      | _ => .error .missingOperand

/-- The decoder on an instruction whose bits are `w`, numbered as spec/opcode_table.json numbers them: the opcode is bits 7 to
0, the first operand byte bits 15 to 8, the second bits 23 to 16, and every bit from `nbits` up is 0. None where there is no
whole opcode byte. -/
def decodeTableWord (nbits w : Nat) : Option Instr :=
  if nbits < 8 then none
  else
    let v := w % 2 ^ nbits
    some (decode (BitVec.ofNat 8 v) (BitVec.ofNat 8 (v >>> 8)) (BitVec.ofNat 8 (v >>> 16)))

/-! ### The encoder (Table R72-T) -/

/-- The 3-bit field code of a register (Table R21-T). -/
def regField : Reg → BitVec 3
  | .b => 0b000
  | .c => 0b001
  | .d => 0b010
  | .e => 0b011
  | .h => 0b100
  | .l => 0b101
  | .m => 0b110
  | .a => 0b111

/-- The 2-bit field code of a pair (R64). -/
def pairField : Pair → BitVec 2
  | .bc => 0b00
  | .de => 0b01
  | .hl => 0b10
  | .sp => 0b11

/-- The opcode byte of an instruction (Table R61-T). -/
def opcodeOf : Instr → Byte
  | .hlt => 0b01110110
  | .mov dst src => 0b01#2 ++ regField dst ++ regField src
  | .mvi r _ => 0b00#2 ++ regField r ++ 0b110#3
  | .lxiSp _ _ => 0b00110001
  | .lxi rp _ _ => 0b00#2 ++ pairField rp ++ 0b0001#4
  | .lda _ _ => 0b00111010
  | .sta _ _ => 0b00110010
  | .unrec op => op

/-- The operand bytes of an instruction in stream order: the low byte first (R60, R70). -/
def operandBytes : Instr → List Byte
  | .hlt => []
  | .mov _ _ => []
  | .mvi _ arg1 => [arg1]
  | .lxiSp arg1 arg2 => [arg1, arg2]
  | .lxi _ arg1 arg2 => [arg1, arg2]
  | .lda arg1 arg2 => [arg1, arg2]
  | .sta arg1 arg2 => [arg1, arg2]
  | .unrec _ => []

/-- The bytes of an instruction in stream order (Table R72-T). -/
def encode (i : Instr) : List Byte := opcodeOf i :: operandBytes i

end Sys2Proof
end

