-- ==== Sys2Proof/Config.lean ====
section
/-! DEFINITION. The named parameters of the spec (00_scope.md R8, Table R8-T). `HLT_TERMINAL` has one value only and is not
carried (93_implementation_defined.md U2). The spec leaves no value free, so there is no free value here. -/

namespace Sys2Proof

/-- `DRIVER_MODE`: whether instruction triples come from the environment or are fetched from memory at `pc` (R6, R8). -/
inductive DriverMode where
  | callDriven
  | program
  deriving DecidableEq, Repr

/-- The configuration of one machine. It is carried in the state and no step changes it (log entry 1). -/
structure Config where
  /-- `DRIVER_MODE` (R8). -/
  driverMode : DriverMode
  /-- `M_INDIRECT` (R8): register index 6 of `MOV` and `MVI` means memory at H:L. -/
  mIndirect : Bool
  deriving DecidableEq, Repr

/-- The default of every parameter, which is the source's own hardware (Table R8-T). -/
def Config.default : Config := { driverMode := .callDriven, mIndirect := false }

end Sys2Proof
end

