-- ==== Sys2Proof/Machine/State.lean ====
section
/-! DEFINITION. The state of the machine (spec 10_state.md R20), the input that its environment presents (R36, spec
45_fetch_sequencer.md R125), the reasons a step can stop, and the state after reset (R32). -/

namespace Sys2Proof.Machine

/-- The eight general registers, `x[0]` to `x[7]`, each under its name (R21). -/
structure Regs where
  b : Byte
  c : Byte
  d : Byte
  e : Byte
  h : Byte
  l : Byte
  m : Byte
  a : Byte
  deriving DecidableEq, Repr

/-- One transaction on the input surface in call-driven mode (R36, 92_eei_decisions.md D1). An operand byte that the driver does
not supply is 0. -/
inductive Command where
  /-- `EXECUTE` with its triple. -/
  | execute (op : Byte) (arg1 : Byte := 0) (arg2 : Byte := 0)
  /-- `ZERO_ALL`. -/
  | zeroAll
  /-- Both commands presented at once (60_exceptions.md R144). -/
  | executeAndZeroAll (op : Byte) (arg1 : Byte := 0) (arg2 : Byte := 0)
  deriving DecidableEq, Repr

/-- One action of the host in program mode (45_fetch_sequencer.md R125, R126, 70_reset_and_hazards.md R167). A load and a start
address have no form of their own: they come in `start` only, right after its reset, so that no list of actions touches the
state of a run (92_eei_decisions.md D7, log entry 3). -/
inductive HostAction where
  /-- Reset the machine and nothing else. -/
  | zeroAll
  /-- Begin a run: reset, then write a finite memory image, then set the program counter if a start address is given. -/
  | start (image : List (Word × Byte)) (address : Option Word := none)
  /-- Let the sequencer make one step. -/
  | sequence
  deriving DecidableEq, Repr

/-- The whole state. `pc`, `sp`, `regs` and `mem` are the spec's Processor State (R20). `config` is the machine's configuration
(00_scope.md R8, log entry 1). `commands` and `hostActions` are the input still to come (log entries 2 and 3). -/
structure State where
  /-- Program counter (R25). -/
  pc : Word
  /-- Stack pointer (R26). -/
  sp : Word
  /-- General registers (R21). -/
  regs : Regs
  /-- Memory (R30): the cells that are not 0, by rising address (log entry 5). -/
  mem : List Host.Cell
  /-- Configuration; no step changes it. -/
  config : Config
  /-- What the driver will present next, first command first; read in call-driven mode. -/
  commands : List Command
  /-- What the host will do next, first action first; read in program mode. -/
  hostActions : List HostAction
  deriving DecidableEq, Repr

/-- The reasons to stop with a fault. No step raises one (60_exceptions.md R142). -/
inductive Fault where
  /-- The register-pair resolver was given the pair SP: the source's fail-fast abort (42_immediate_load.md R104). Raised by
  `execLxi` on the ill-formed term `LXI` with the pair SP, which the decoder never gives. Safe: no step reaches it. -/
  | pairIndexOutOfRange
  deriving DecidableEq, Repr

/-- The reasons to refuse. No step refuses (60_exceptions.md R142). -/
inductive Refusal where
  /-- An instruction without a meaning. Raised by no arm: every instruction has its meaning. Safe. -/
  | notModelled (mnemonic : String)
  deriving DecidableEq, Repr

/-- What a step, a command or an instruction answers. -/
abbrev Result := Host.Outcome State Fault Refusal

/-- All eight registers 0. -/
def Regs.zero : Regs := { b := 0, c := 0, d := 0, e := 0, h := 0, l := 0, m := 0, a := 0 }

/-- The machine at creation, which is the machine after `zero_all` (R32, 70_reset_and_hazards.md R161), with the default
configuration and no input presented. -/
def State.reset : State :=
  { pc := 0, sp := 0, regs := Regs.zero, mem := [], config := Config.default, commands := [], hostActions := [] }

end Sys2Proof.Machine
end

