-- ==== Sys2Proof/Machine/Ops.lean ====
section
/-! DEFINITION. The named operations over registers, pointers and memory, and the reset `zero_all`. The hardware takes no
exception and has no return from one (spec 60_exceptions.md R140 to R146), so there is no such operation here. -/

namespace Sys2Proof.Machine

/-! ### Registers (10_state.md R21) -/

/-- `x[r]`. -/
def Regs.get (x : Regs) (r : Reg) : Byte :=
  match r with
  | .b => x.b
  | .c => x.c
  | .d => x.d
  | .e => x.e
  | .h => x.h
  | .l => x.l
  | .m => x.m
  | .a => x.a

/-- `x[r] <- v`. -/
def Regs.set (x : Regs) (r : Reg) (v : Byte) : Regs :=
  match r with
  | .b => { x with b := v }
  | .c => { x with c := v }
  | .d => { x with d := v }
  | .e => { x with e := v }
  | .h => { x with h := v }
  | .l => { x with l := v }
  | .m => { x with m := v }
  | .a => { x with a := v }

/-- Read a general register. It never fails (R24). -/
def readReg (s : State) (r : Reg) : Byte := s.regs.get r

/-- Write a general register. -/
def writeReg (s : State) (r : Reg) (v : Byte) : State := { s with regs := s.regs.set r v }

/-- `sp <- v`. -/
def setSp (s : State) (v : Word) : State := { s with sp := v }

/-- `pc <- v`. -/
def setPc (s : State) (v : Word) : State := { s with pc := v }

/-! ### Memory (00_scope.md R13, 10_state.md R30) -/

/-- What an address that no entry lists reads as: the reset contents (R32). -/
def unlistedByte : Byte := 0

/-- The canonical form: addresses strictly rising and inside the address space, no entry equal to what an unlisted address
reads as. -/
abbrev Memory.wf (m : List Host.Cell) : Prop :=
  m.Pairwise (fun c c' => c.1 < c'.1) ∧ ∀ c ∈ m, c.1 < 65536 ∧ c.2 ≠ unlistedByte

/-- The byte at an address. -/
def Memory.lookup (m : List Host.Cell) (a : Nat) : Byte :=
  match m with
  | [] => unlistedByte
  | c :: rest => if c.1 = a then c.2 else Memory.lookup rest a

/-- Take an address out of the list. -/
def Memory.erase (m : List Host.Cell) (a : Nat) : List Host.Cell :=
  match m with
  | [] => []
  | c :: rest => if c.1 = a then Memory.erase rest a else c :: Memory.erase rest a

/-- Put an entry before the first entry of a greater address. -/
def Memory.insert (m : List Host.Cell) (a : Nat) (v : Byte) : List Host.Cell :=
  match m with
  | [] => [(a, v)]
  | c :: rest => if a < c.1 then (a, v) :: c :: rest else c :: Memory.insert rest a v

/-- Store a byte at an address, keeping the canonical form. -/
def Memory.store (m : List Host.Cell) (a : Nat) (v : Byte) : List Host.Cell :=
  if v = unlistedByte then Memory.erase m a else Memory.insert (Memory.erase m a) a v

/-- `MemRead(a, 1)` (R13). -/
def memRead (s : State) (a : Word) : Byte := Memory.lookup s.mem a.toNat

/-- `MemWrite(a, 1, v)` (R13). -/
def memWrite (s : State) (a : Word) (v : Byte) : State := { s with mem := Memory.store s.mem a.toNat v }

/-- Write a finite memory image, pair by pair (45_fetch_sequencer.md R125; log entry 10). -/
def loadImage (s : State) (image : List (Word × Byte)) : State :=
  match image with
  | [] => s
  | c :: rest => loadImage (memWrite s c.1 c.2) rest

/-! ### Reset (70_reset_and_hazards.md R160) -/

/-- `zero_all`: the program counter, the stack pointer, every register and every memory cell become 0. The configuration and
the input still to come are not Processor State and stay (log entry 13). -/
def zeroAll (s : State) : State := { s with pc := 0, sp := 0, regs := Regs.zero, mem := [] }

/-- Begin a run: reset, load, and set the program counter to the start address, which is 0 unless the host gives another
(45_fetch_sequencer.md R125, 70_reset_and_hazards.md R165, R167). -/
def startRun (image : List (Word × Byte)) (address : Option Word) (s : State) : State :=
  setPc (loadImage (zeroAll s) image) (address.getD 0)

end Sys2Proof.Machine
end

