-- ==== Sys2Proof/Machine/Operands.lean ====
section
/-! DEFINITION. Operand forms: 16-bit operands from two bytes, the two addresses the address generator forms, the register
operands with and without `M_INDIRECT`, and the register-pair index resolver. There are no flags in this hardware (spec
10_state.md R27), so no flag computation exists. -/

namespace Sys2Proof.Machine

/-- `{hi, lo} = (hi << 8) | lo` (00_scope.md R10). -/
def bytePair (hi lo : Byte) : Word := (hi.setWidth 16 <<< 8) ||| lo.setWidth 16

/-- The 16-bit immediate `d16`: `arg1` is its low byte, `arg2` its high byte (30_encoding.md R70, 20_memory.md R44). -/
def immediate16 (arg1 arg2 : Byte) : Word := bytePair arg2 arg1

/-- The direct address `a16` of `LDA` and `STA` (20_memory.md R41). -/
def directAddress (arg1 arg2 : Byte) : Word := bytePair arg2 arg1

/-- The register-indirect address `{x[4], x[5]}`, H the high byte (20_memory.md R42). -/
def hlAddress (s : State) : Word := bytePair (readReg s .h) (readReg s .l)

/-- Whether a register operand of `MOV` or `MVI` means memory at H:L (46_variant_m_indirect.md R131). -/
def isIndirect (s : State) (r : Reg) : Bool := s.config.mIndirect && r == .m

/-- `ReadOperand` (R131); with `M_INDIRECT = false` it is `x[r]` (10_state.md R22). -/
def readOperand (s : State) (r : Reg) : Byte :=
  if isIndirect s r then memRead s (hlAddress s) else readReg s r

/-- `WriteOperand` (R131), its address taken from the state `s` before the write; with `M_INDIRECT = false` it is `x[r] <- v`
(10_state.md R22). -/
def writeOperand (s : State) (r : Reg) (v : Byte) : State :=
  if isIndirect s r then memWrite s (hlAddress s) v else writeReg s r v

/-- `get_RP_indices`: the high and the low register of a pair, and the fail-fast case of the pair SP (42_immediate_load.md
R103, R104). It never gives registers for SP. -/
def getRpIndices (rp : Pair) : Except Fault (Reg × Reg) :=
  match rp with
  | .bc => .ok (.b, .c)
  | .de => .ok (.d, .e)
  | .hl => .ok (.h, .l)
  | .sp => .error .pairIndexOutOfRange

end Sys2Proof.Machine
end

