-- ==== Sys2Proof/Machine/Direct.lean ====
section
/-! DEFINITION. The direct load and the direct store (spec 43_direct_load_store.md). -/

namespace Sys2Proof.Machine

/-- `LDA a16`: `x[7] <- MemRead(a16, 1)` (R110). -/
def execLda (arg1 arg2 : Byte) (s : State) : Result :=
  .next (writeReg s .a (memRead s (directAddress arg1 arg2)))

/-- `STA a16`: `MemWrite(a16, 1, x[7])` (R111). -/
def execSta (arg1 arg2 : Byte) (s : State) : Result :=
  .next (memWrite s (directAddress arg1 arg2) (readReg s .a))

end Sys2Proof.Machine
end

