-- ==== Sys2Proof/Machine/Immediate.lean ====
section
/-! DEFINITION. The immediate loads (spec 42_immediate_load.md, 46_variant_m_indirect.md R134). -/

namespace Sys2Proof.Machine

/-- `MVI r,d8`: `x[R] <- arg1`, index 6 redirected under `M_INDIRECT` (R100, R134). -/
def execMvi (r : Reg) (arg1 : Byte) (s : State) : Result := .next (writeOperand s r arg1)

/-- `LXI SP,d16`: `sp <- (arg2 << 8) | arg1` (R102). -/
def execLxiSp (arg1 arg2 : Byte) (s : State) : Result := .next (setSp s (immediate16 arg1 arg2))

/-- `LXI rp,d16`: `x[low] <- arg1`, `x[high] <- arg2` for the registers the resolver gives (R101); the resolver's fail-fast
case is the fault (R104). -/
def execLxi (rp : Pair) (arg1 arg2 : Byte) (s : State) : Result :=
  match getRpIndices rp with
  | .ok (high, low) => .next (writeReg (writeReg s low arg1) high arg2)
  | .error f => .fault f

end Sys2Proof.Machine
end

