-- ==== Sys2Proof/Machine/Move.lean ====
section
/-! DEFINITION. The HALT placeholder and the register move (spec 41_register_move.md, 46_variant_m_indirect.md). -/

namespace Sys2Proof.Machine

/-- `HLT`: nothing, and the machine goes on (R91, R135). -/
def execHlt (s : State) : Result := .next s

/-- `MOV d,s`: `x[D] <- x[S]`, index 6 redirected under `M_INDIRECT` (R90, R131 to R133). -/
def execMov (dst src : Reg) (s : State) : Result := .next (writeOperand s dst (readOperand s src))

end Sys2Proof.Machine
end

