-- ==== Sys2Proof/Machine/Unrecognised.lean ====
section
/-! DEFINITION. The fall-through instruction (spec 40_decode_dispatch.md R82). -/

namespace Sys2Proof.Machine

/-- `UNREC`: nothing, for each of the 178 opcode bytes (R82). -/
def execUnrec (_op : Byte) (s : State) : Result := .next s

end Sys2Proof.Machine
end

