-- ==== Sys2Proof/Machine/Dispatch.lean ====
section
/-! DEFINITION. The dispatch of an instruction to its meaning, one arm per constructor (spec 40_decode_dispatch.md R81). -/

namespace Sys2Proof.Machine

def exec (i : Instr) (s : State) : Host.Outcome State Fault Refusal :=
  match i with
  | .hlt => Sys2Proof.Machine.execHlt s
  | .mov dst src => Sys2Proof.Machine.execMov dst src s
  | .mvi r arg1 => Sys2Proof.Machine.execMvi r arg1 s
  | .lxiSp arg1 arg2 => Sys2Proof.Machine.execLxiSp arg1 arg2 s
  | .lxi rp arg1 arg2 => Sys2Proof.Machine.execLxi rp arg1 arg2 s
  | .lda arg1 arg2 => Sys2Proof.Machine.execLda arg1 arg2 s
  | .sta arg1 arg2 => Sys2Proof.Machine.execSta arg1 arg2 s
  | .unrec op => Sys2Proof.Machine.execUnrec op s

end Sys2Proof.Machine
end

