-- ==== Sys2Proof/Machine/Driver.lean ====
section
/-! DEFINITION. The engine's operation `execute` (spec 40_decode_dispatch.md R80), the fetch sequencer (spec
45_fetch_sequencer.md R121 to R124), and what one step of each driver mode does. -/

namespace Sys2Proof.Machine

/-- `execute(op, arg1, arg2)`: decode, then the effect (R80, R81). -/
def execute (op arg1 arg2 : Byte) (s : State) : Result := exec (decode op arg1 arg2) s

/-! ### Program mode -/

/-- The opcode byte at the program counter (R121). -/
def fetchOpcode (s : State) : Byte := memRead s s.pc

/-- The operand count of the instruction at the program counter (R122). -/
def fetchCount (s : State) : Nat := operandCount (decodeShape (fetchOpcode s))

/-- `arg1`: the byte after the opcode if the shape uses one, else 0 (R122). -/
def fetchArg1 (s : State) : Byte := if 1 ≤ fetchCount s then memRead s (s.pc + 1) else 0

/-- `arg2`: the second byte after the opcode if the shape uses two, else 0 (R122). -/
def fetchArg2 (s : State) : Byte := if fetchCount s = 2 then memRead s (s.pc + 2) else 0

/-- The address of the next instruction, modulo 65536 (R123). -/
def nextPc (s : State) : Word := s.pc + 1 + BitVec.ofNat 16 (fetchCount s)

/-- One step of the sequencer: fetch, operand fetch, advance, execute (R124). -/
def sequencerStep (s : State) : Result :=
  execute (fetchOpcode s) (fetchArg1 s) (fetchArg2 s) (setPc s (nextPc s))

/-- One action of the host (R125, 70_reset_and_hazards.md R167). -/
def performHostAction (act : HostAction) (s : State) : Result :=
  match act with
  | .zeroAll => .next (zeroAll s)
  | .start image address => .next (startRun image address s)
  | .sequence => sequencerStep s

/-- A step in program mode: the host's next action, or, when none is left, the sequencer running alone (R126). -/
def programStep (s : State) : Result :=
  match s.hostActions with
  | [] => sequencerStep s
  | act :: rest => performHostAction act { s with hostActions := rest }

/-! ### Call-driven mode -/

/-- One command of the input surface (10_state.md R36); `ZERO_ALL` wins over an `EXECUTE` presented with it (60_exceptions.md
R144). -/
def performCommand (c : Command) (s : State) : Result :=
  match c with
  | .execute op arg1 arg2 => execute op arg1 arg2 s
  | .zeroAll => .next (zeroAll s)
  | .executeAndZeroAll _ _ _ => .next (zeroAll s)

/-- A step in call-driven mode: the driver's next command; with none presented the state does not change (40_decode_dispatch.md
R84, log entry 2). -/
def callStep (s : State) : Result :=
  match s.commands with
  | [] => .next s
  | c :: rest => performCommand c { s with commands := rest }

/-! ### Placing an instruction where the next step takes it -/

/-- The instruction `(op, arg1, arg2)` presented so that the very next step runs it: in call-driven mode as the driver's next
command, in program mode in memory at the program counter with a sequencer step as the host's next action (log entry 4). -/
def placeInstruction (s : State) (op arg1 arg2 : Byte) : State :=
  match s.config.driverMode with
  | .callDriven => { s with commands := .execute op arg1 arg2 :: s.commands }
  | .program =>
    { memWrite (memWrite (memWrite s (s.pc + 2) arg2) (s.pc + 1) arg1) s.pc op with
      hostActions := .sequence :: s.hostActions }

end Sys2Proof.Machine
end

