-- ==== Sys2Proof/Machine/Step.lean ====
section
/-! DEFINITION. One step of the machine in either driver mode (spec 00_scope.md R6, R8), and the placing of a table word where
the next step takes its instruction. -/

namespace Sys2Proof.Machine

/-- One step. -/
def step (s : State) : Host.Outcome State Fault Refusal :=
  match s.config.driverMode with
  | .callDriven => callStep s
  | .program => programStep s

/-- The state `s` with the instruction whose bits are `w` where the next step takes it; every bit from `nbits` up is 0. -/
def State.withFetchWord (s : State) (nbits w : Nat) : State :=
  let v := w % 2 ^ nbits
  placeInstruction s (BitVec.ofNat 8 v) (BitVec.ofNat 8 (v >>> 8)) (BitVec.ofNat 8 (v >>> 16))

end Sys2Proof.Machine
end

