-- ==== Sys2Proof/Machine/Assembler.lean ====
section
/-! DEFINITION. The assembler syntax of the spec (30_encoding.md R72, R73, Table R72-T): how an instruction is written, and the
one pseudo-instruction `DB n`. Names only; nothing here has an effect on the machine. -/

namespace Sys2Proof.Machine

/-- One line of a program's text: an instruction, or `DB n`, which emits the byte `n` (R73). -/
inductive Line where
  | instr (i : Instr)
  | db (n : Byte)
  deriving DecidableEq, Repr

/-- The bytes of a program, line by line (Table R72-T). -/
def assemble (program : List Line) : List Byte :=
  match program with
  | [] => []
  | .instr i :: rest => encode i ++ assemble rest
  | .db n :: rest => n :: assemble rest

/-- The name of a register (Table R21-T). -/
def regName (r : Reg) : Char :=
  match r with
  | .b => 'B'
  | .c => 'C'
  | .d => 'D'
  | .e => 'E'
  | .h => 'H'
  | .l => 'L'
  | .m => 'M'
  | .a => 'A'

/-- The name of a pair (R72). -/
def pairName (rp : Pair) : List Char :=
  match rp with
  | .bc => ['B', 'C']
  | .de => ['D', 'E']
  | .hl => ['H', 'L']
  | .sp => ['S', 'P']

/-- One hexadecimal digit. -/
def hexDigit (n : Nat) : Char := ['0', '1', '2', '3', '4', '5', '6', '7', '8', '9', 'A', 'B', 'C', 'D', 'E', 'F'].getD n '0'

/-- The two hexadecimal digits of a byte. -/
def hexByte (b : Byte) : List Char := [hexDigit (b.toNat / 16), hexDigit (b.toNat % 16)]

/-- A byte as a number, `0x..` (R72). -/
def byteText (b : Byte) : List Char := '0' :: 'x' :: hexByte b

/-- A 16-bit operand as a number: the high byte's digits first (R72). -/
def wordText (arg1 arg2 : Byte) : List Char := '0' :: 'x' :: (hexByte arg2 ++ hexByte arg1)

/-- How an instruction is written, as its characters (Table R72-T). -/
def instrText (i : Instr) : List Char :=
  match i with
  | .hlt => ['H', 'L', 'T']
  | .mov dst src => ['M', 'O', 'V', ' ', regName dst, ',', regName src]
  | .mvi r arg1 => ['M', 'V', 'I', ' ', regName r, ','] ++ byteText arg1
  | .lxiSp arg1 arg2 => ['L', 'X', 'I', ' ', 'S', 'P', ','] ++ wordText arg1 arg2
  | .lxi rp arg1 arg2 => ['L', 'X', 'I', ' '] ++ pairName rp ++ [','] ++ wordText arg1 arg2
  | .lda arg1 arg2 => ['L', 'D', 'A', ' '] ++ wordText arg1 arg2
  | .sta arg1 arg2 => ['S', 'T', 'A', ' '] ++ wordText arg1 arg2
  | .unrec op => ['D', 'B', ' '] ++ byteText op

/-- How a line is written. -/
def lineText (line : Line) : List Char :=
  match line with
  | .instr i => instrText i
  | .db n => ['D', 'B', ' '] ++ byteText n

end Sys2Proof.Machine
end

