-- ==== Sys2Proof/Machine/Inspect.lean ====
section
/-! DEFINITION. The read-only inspection surface (spec 10_state.md R37, R38). -/

namespace Sys2Proof.Machine

/-- The ordered table of register names (R38). -/
def registerNames : List (Char × Reg) :=
  [('B', .b), ('C', .c), ('D', .d), ('E', .e), ('H', .h), ('L', .l), ('M', .m), ('A', .a)]

/-- The register of a name, by linear search of a table; none for a name that is not in it (R38, log entry 9). -/
def searchName (table : List (Char × Reg)) (name : Char) : Option Reg :=
  match table with
  | [] => none
  | row :: rest => if row.1 = name then some row.2 else searchName rest name

/-- What the surface shows for the program counter. -/
def inspectPc (s : State) : Word := s.pc

/-- What the surface shows for the stack pointer. -/
def inspectSp (s : State) : Word := s.sp

/-- What the surface shows for a register name. Under `M_INDIRECT` the name M still shows the slot (46_variant_m_indirect.md
R136). -/
def inspectReg (s : State) (name : Char) : Option Byte := (searchName registerNames name).map (readReg s)

/-- What the surface shows for a memory range; a range that passes the last cell goes on at cell 0 (R37). -/
def inspectRange (s : State) (start : Word) (length : Nat) : List Byte :=
  match length with
  | 0 => []
  | n + 1 => memRead s start :: inspectRange s (start + 1) n

end Sys2Proof.Machine
end

