-- ==== Sys2Proof/Safety.lean ====
section
/-! DEFINITION. The terms the claims are stated in: what stays unchanged, what an instruction reads and writes (spec
10_state.md Table R35-T and 46_variant_m_indirect.md R137), the invariants, and what a safe run is. -/

namespace Sys2Proof.Machine

/-! ### What stays unchanged from `s` to `t` -/

/-- Every general register but the listed ones. -/
def SameRegsExcept (rs : List Reg) (s t : State) : Prop := ∀ r, r ∉ rs → readReg t r = readReg s r

/-- Every memory cell but the listed ones. -/
def SameMemExcept (cells : List Word) (s t : State) : Prop := ∀ a, a ∉ cells → memRead t a = memRead s a

/-- The program counter and the stack pointer. -/
def SamePointers (s t : State) : Prop := t.pc = s.pc ∧ t.sp = s.sp

/-- The configuration and the input still to come. -/
def SameInput (s t : State) : Prop :=
  t.config = s.config ∧ t.commands = s.commands ∧ t.hostActions = s.hostActions

/-! ### What an instruction reads and writes -/

/-- One row of the access matrix. -/
structure Access where
  readsRegs : List Reg
  writesRegs : List Reg
  writesSp : Bool
  readsCells : List Word
  writesCells : List Word
  deriving DecidableEq, Repr

/-- The row of an instruction that reads and writes nothing. -/
def Access.none : Access := { readsRegs := [], writesRegs := [], writesSp := false, readsCells := [], writesCells := [] }

/-- The access matrix: Table R35-T, with the rows R137 adds under `M_INDIRECT`. -/
def accessOf (i : Instr) (s : State) : Access :=
  match i with
  | .hlt => Access.none
  | .mov dst src =>
    if isIndirect s src then
      { Access.none with readsRegs := [.h, .l], writesRegs := [dst], readsCells := [hlAddress s] }
    else if isIndirect s dst then
      { Access.none with readsRegs := [.h, .l, src], writesCells := [hlAddress s] }
    else { Access.none with readsRegs := [src], writesRegs := [dst] }
  | .mvi r _ =>
    if isIndirect s r then { Access.none with readsRegs := [.h, .l], writesCells := [hlAddress s] }
    else { Access.none with writesRegs := [r] }
  | .lxiSp _ _ => { Access.none with writesSp := true }
  | .lxi .bc _ _ => { Access.none with writesRegs := [.b, .c] }
  | .lxi .de _ _ => { Access.none with writesRegs := [.d, .e] }
  | .lxi .hl _ _ => { Access.none with writesRegs := [.h, .l] }
  | .lxi .sp _ _ => Access.none
  | .lda arg1 arg2 => { Access.none with writesRegs := [.a], readsCells := [directAddress arg1 arg2] }
  | .sta arg1 arg2 => { Access.none with readsRegs := [.a], writesCells := [directAddress arg1 arg2] }
  | .unrec _ => Access.none

/-! ### Sequences of instructions in call-driven use -/

/-- One `execute` after the other, the triples in order. -/
def executeAll (triples : List (Byte × Byte × Byte)) (s : State) : Result :=
  match triples with
  | [] => .next s
  | (op, arg1, arg2) :: rest =>
    match execute op arg1 arg2 s with
    | .next t => executeAll rest t
    | .fault f => .fault f
    | .refused r => .refused r

/-- No instruction of the sequence stores to the cell `a`, each judged in the state it executes in. -/
def NoStoreTo (a : Word) (triples : List (Byte × Byte × Byte)) (s : State) : Prop :=
  match triples with
  | [] => True
  | (op, arg1, arg2) :: rest =>
    a ∉ (accessOf (decode op arg1 arg2) s).writesCells ∧
      ∀ t, execute op arg1 arg2 s = .next t → NoStoreTo a rest t

/-! ### Invariants and safe runs -/

/-- Memory is in its canonical form. -/
def CanonicalMemory (s : State) : Prop := Memory.wf s.mem

/-- Under `M_INDIRECT` the unused slot 6 holds 0 (46_variant_m_indirect.md R136). -/
def SlotSixZero (s : State) : Prop := s.config.mIndirect = true → readReg s .m = 0

/-- In call-driven mode the program counter holds 0 (10_state.md R25). -/
def CallDrivenPcZero (s : State) : Prop := s.config.driverMode = .callDriven → s.pc = 0

/-- Every field of the Processor State is 0 (10_state.md R32). -/
def AllZero (s : State) : Prop :=
  s.pc = 0 ∧ s.sp = 0 ∧ (∀ r, readReg s r = 0) ∧ ∀ a, memRead s a = 0

/-- A safe run: it never stops, whatever its length (60_exceptions.md R142). -/
def NeverStops (s : State) : Prop := ∀ k, ∃ t, Host.Core.run core k s = .next t

end Sys2Proof.Machine
end

