-- ==== Sys2Proof/Certificates/Slice0/Obligations.lean ====
section
/-! DEFINITION. The statements for the provers. Each docstring names the rule of the spec it formalises. A clause about the
fields `config`, `commands` and `hostActions` rests on log entries 1 to 3 (the configuration and the input as state fields). -/

open Sys2Proof Sys2Proof.Machine

/-! ### The primitives and the state -/

/-- R13 (00_scope.md): `MemRead` after `MemWrite`, and that `MemWrite` changes nothing else. -/
def Obligations.MemoryWriteChangesOneCell : Prop :=
  ∀ (s : State) (a : Word) (v : Byte),
    memRead (memWrite s a v) a = v ∧ SameMemExcept [a] s (memWrite s a v) ∧ SameRegsExcept [] s (memWrite s a v) ∧
      SamePointers s (memWrite s a v)

/-- 10_state.md section 8: the registers, the two pointers and the memory are distinct storage. -/
def Obligations.RegistersAndPointersAreDistinct : Prop :=
  ∀ (s : State) (r : Reg) (v : Byte) (w : Word),
    (readReg (writeReg s r v) r = v ∧ SameRegsExcept [r] s (writeReg s r v) ∧ SamePointers s (writeReg s r v) ∧
      SameMemExcept [] s (writeReg s r v) ∧ SameInput s (writeReg s r v)) ∧
    (setSp s w).sp = w ∧ (setSp s w).pc = s.pc ∧ SameRegsExcept [] s (setSp s w) ∧ SameMemExcept [] s (setSp s w) ∧
    (setPc s w).pc = w ∧ (setPc s w).sp = s.sp ∧ SameRegsExcept [] s (setPc s w) ∧ SameMemExcept [] s (setPc s w) ∧
    (s.config.mIndirect = false → SameMemExcept [] s (writeOperand s .m v))

/-- R32 (10_state.md), R161 (70_reset_and_hazards.md): the machine at creation, and that it is what `zero_all` leaves, whatever
the Processor State before it. -/
def Obligations.CreationStateIsAllZero : Prop :=
  AllZero State.reset ∧
    ∀ (pc sp : Word) (regs : Regs) (mem : List Host.Cell),
      zeroAll { State.reset with pc := pc, sp := sp, regs := regs, mem := mem } = State.reset

/-- R160 (70_reset_and_hazards.md): `zero_all` zeroes every field, and reads no state: the Processor State it leaves is the same
whatever the state before. -/
def Obligations.ZeroAllZeroesEverything : Prop :=
  ∀ s u : State, AllZero (zeroAll s) ∧ (zeroAll u).pc = (zeroAll s).pc ∧ (zeroAll u).sp = (zeroAll s).sp ∧
    (zeroAll u).regs = (zeroAll s).regs ∧ (zeroAll u).mem = (zeroAll s).mem

/-! ### Encoding -/

/-- R62 to R64 (30_encoding.md): the fields are the bits at their positions, and the field codes of registers and pairs. -/
def Obligations.FieldsAndFieldCodes : Prop :=
  (∀ op : Byte, (fieldD op).toNat = op.toNat / 8 % 8 ∧ (fieldS op).toNat = op.toNat % 8 ∧
    (fieldP op).toNat = op.toNat / 16 % 4) ∧
  (regOfField 0b000 = .b ∧ regOfField 0b001 = .c ∧ regOfField 0b010 = .d ∧ regOfField 0b011 = .e ∧
    regOfField 0b100 = .h ∧ regOfField 0b101 = .l ∧ regOfField 0b110 = .m ∧ regOfField 0b111 = .a) ∧
  (pairOfField 0b00 = .bc ∧ pairOfField 0b01 = .de ∧ pairOfField 0b10 = .hl ∧ pairOfField 0b11 = .sp)

/-- R71 (30_encoding.md): the shape of every opcode byte, by the closed forms of the map and the 178 unrecognised bytes. -/
def Obligations.OpcodeMap : Prop :=
  (∀ dst src : Reg, ¬(dst = .m ∧ src = .m) →
    decodeShape (BitVec.ofNat 8 (0x40 + 8 * (regField dst).toNat + (regField src).toNat)) = .mov dst src) ∧
  decodeShape 0x76#8 = .hlt ∧
  (∀ r : Reg, decodeShape (BitVec.ofNat 8 (0x06 + 8 * (regField r).toNat)) = .mvi r) ∧
  (∀ rp : Pair, rp ≠ .sp → decodeShape (BitVec.ofNat 8 (0x01 + 16 * (pairField rp).toNat)) = .lxi rp) ∧
  decodeShape 0x31#8 = .lxiSp ∧ decodeShape 0x3A#8 = .lda ∧ decodeShape 0x32#8 = .sta ∧
  ∀ op : Byte, decodeShape op = .unrec op ↔ isUnrecByte op = true

/-- R67 (30_encoding.md): no byte matches two of the five patterns, so each pattern decides the shape by itself, whatever the
order of the tests. -/
def Obligations.PatternsAreDisjoint : Prop :=
  ∀ op : Byte,
    ([isMovePattern op, isImmediatePattern op, isPairPattern op, isLoadPattern op, isStorePattern op].count true ≤ 1) ∧
    (isMovePattern op = true → decodeShape op = if op = 0x76#8 then .hlt else .mov (regOfField (fieldD op)) (regOfField (fieldS op))) ∧
    (isImmediatePattern op = true → decodeShape op = .mvi (regOfField (fieldD op))) ∧
    (isPairPattern op = true → decodeShape op = if op = 0x31#8 then .lxiSp else .lxi (pairOfField (fieldP op))) ∧
    (isLoadPattern op = true → decodeShape op = .lda) ∧
    (isStorePattern op = true → decodeShape op = .sta)

/-- R69 (30_encoding.md): an operand byte the shape does not use does not influence the instruction, and an operand the driver
does not supply is 0. -/
def Obligations.UnusedOperandsAreIgnored : Prop :=
  (∀ op arg1 arg2 other1 other2 : Byte,
    (operandCount (decodeShape op) = 0 → decode op arg1 arg2 = decode op other1 other2) ∧
    (operandCount (decodeShape op) = 1 → decode op arg1 arg2 = decode op arg1 other2)) ∧
  ∀ op arg1 : Byte, Command.execute op = Command.execute op 0 0 ∧ Command.execute op arg1 = Command.execute op arg1 0

/-- 30_encoding.md section 5 (Table R72-T) and 95_test_vectors.md section 2.1: words written out from the encodings decode to the
instructions they stand for. -/
def Obligations.WrittenOutWordsDecode : Prop :=
  decodeStream [0b01110110#8] = .ok (.hlt, []) ∧
  decodeStream [0b01000111#8] = .ok (.mov .b .a, []) ∧
  decodeStream [0b01110101#8] = .ok (.mov .m .l, []) ∧
  decodeStream [0b00111110#8, 0x7B#8] = .ok (.mvi .a 0x7B#8, []) ∧
  decodeStream [0b00100001#8, 0xBC#8, 0x9A#8] = .ok (.lxi .hl 0xBC#8 0x9A#8, []) ∧
  decodeStream [0b00110001#8, 0xFE#8, 0xFF#8] = .ok (.lxiSp 0xFE#8 0xFF#8, []) ∧
  decodeStream [0b00111010#8, 0x00#8, 0x20#8] = .ok (.lda 0x00#8 0x20#8, []) ∧
  decodeStream [0b00110010#8, 0x34#8, 0x12#8] = .ok (.sta 0x34#8 0x12#8, []) ∧
  decodeStream [0b11000011#8, 0x47#8] = .ok (.unrec 0xC3#8, [0x47#8])

/-- 30_encoding.md sections 1 and 5: decoding the encoding of a well-formed instruction gives it back and takes its bytes only. -/
def Obligations.DecodeOfEncode : Prop :=
  ∀ (i : Instr) (rest : List Byte), i.wf = true → decodeStream (encode i ++ rest) = .ok (i, rest)

/-- 30_encoding.md sections 1 and 2: what the decoder takes from a stream is a well-formed instruction, and its encoding is the
bytes taken: each byte sequence has one meaning. -/
def Obligations.EncodeOfDecode : Prop :=
  ∀ (i : Instr) (bytes rest : List Byte), decodeStream bytes = .ok (i, rest) → i.wf = true ∧ encode i ++ rest = bytes

/-- R44 (20_memory.md): `arg1` is the low byte and `arg2` the high byte of every 16-bit operand. -/
def Obligations.OperandByteOrder : Prop :=
  ∀ (arg1 arg2 : Byte) (s : State),
    (∃ t, exec (.lxiSp arg1 arg2) s = .next t ∧ t.sp.toNat = 256 * arg2.toNat + arg1.toNat) ∧
    (∀ rp high low, getRpIndices rp = .ok (high, low) →
      ∃ t, exec (.lxi rp arg1 arg2) s = .next t ∧ readReg t high = arg2 ∧ readReg t low = arg1) ∧
    (directAddress arg1 arg2).toNat = 256 * arg2.toNat + arg1.toNat ∧
    ∃ t, execute 0b00110001#8 0xFE#8 0xFF#8 s = .next t ∧ t.sp = 0xFFFE#16

/-! ### The instructions -/

/-- R91 (41_register_move.md), R135 (46_variant_m_indirect.md): `HLT` does nothing in either variant, is one byte long, and the
next instruction is performed like any other. -/
def Obligations.HltChangesNothing : Prop :=
  ∀ (arg1 arg2 : Byte) (s : State),
    decode 0x76#8 arg1 arg2 = .hlt ∧ (encode .hlt).length = 1 ∧ exec .hlt s = .next s ∧
      ∀ (op b1 b2 : Byte), executeAll [(0x76#8, arg1, arg2), (op, b1, b2)] s = executeAll [(op, b1, b2)] s

/-- R90 (41_register_move.md): `MOV d,s` with `M_INDIRECT = false`, its encoding, its effect and its frame. -/
def Obligations.MovCopiesOneRegister : Prop :=
  ∀ (dst src : Reg) (arg1 arg2 : Byte) (s : State), ¬(dst = .m ∧ src = .m) → s.config.mIndirect = false →
    decode (BitVec.ofNat 8 (0x40 + 8 * (regField dst).toNat + (regField src).toNat)) arg1 arg2 = .mov dst src ∧
    (encode (.mov dst src)).length = 1 ∧
    ∃ t, exec (.mov dst src) s = .next t ∧ readReg t dst = readReg s src ∧
      SameRegsExcept [dst] s t ∧ SamePointers s t ∧ SameMemExcept [] s t

/-- R100 (42_immediate_load.md): `MVI r,d8` with `M_INDIRECT = false`. -/
def Obligations.MviLoadsOneRegister : Prop :=
  ∀ (r : Reg) (arg1 arg2 : Byte) (s : State), s.config.mIndirect = false →
    decode (BitVec.ofNat 8 (0x06 + 8 * (regField r).toNat)) arg1 arg2 = .mvi r arg1 ∧
    (encode (.mvi r arg1)).length = 2 ∧
    ∃ t, exec (.mvi r arg1) s = .next t ∧ readReg t r = arg1 ∧
      SameRegsExcept [r] s t ∧ SamePointers s t ∧ SameMemExcept [] s t

/-- R102 (42_immediate_load.md): `LXI SP,d16`. -/
def Obligations.LxiSpLoadsStackPointer : Prop :=
  ∀ (arg1 arg2 : Byte) (s : State),
    decode 0x31#8 arg1 arg2 = .lxiSp arg1 arg2 ∧ (encode (.lxiSp arg1 arg2)).length = 3 ∧
    ∃ t, exec (.lxiSp arg1 arg2) s = .next t ∧ t.sp.toNat = 256 * arg2.toNat + arg1.toNat ∧ t.pc = s.pc ∧
      SameRegsExcept [] s t ∧ SameMemExcept [] s t

/-- R101 (42_immediate_load.md): `LXI rp,d16` writes the two registers of the pair and nothing else. -/
def Obligations.LxiLoadsBothRegistersOfThePair : Prop :=
  ∀ (rp : Pair) (arg1 arg2 : Byte) (s : State), rp ≠ .sp →
    decode (BitVec.ofNat 8 (0x01 + 16 * (pairField rp).toNat)) arg1 arg2 = .lxi rp arg1 arg2 ∧
    (encode (.lxi rp arg1 arg2)).length = 3 ∧
    ∃ high low t, getRpIndices rp = .ok (high, low) ∧ (regField high).toNat = 2 * (pairField rp).toNat ∧
      (regField low).toNat = 2 * (pairField rp).toNat + 1 ∧ exec (.lxi rp arg1 arg2) s = .next t ∧
      readReg t high = arg2 ∧ readReg t low = arg1 ∧
      SameRegsExcept [high, low] s t ∧ SamePointers s t ∧ SameMemExcept [] s t

/-- 42_immediate_load.md (pair index resolution) and 92_eei_decisions.md D9, with log entry 7: the resolver's values for the
three pairs, its fail-fast case, and that no input of `execute` reaches it. That the case is a fault on the pair SP, and that
`exec` of the ill-formed term `LXI` with SP is this fault, is the model's choice (log entry 7, DESIGN CHOICE): R104 offers a
resolver without that input as well. -/
def Obligations.PairResolver : Prop :=
  getRpIndices .bc = .ok (.b, .c) ∧ getRpIndices .de = .ok (.d, .e) ∧ getRpIndices .hl = .ok (.h, .l) ∧
  getRpIndices .sp = .error .pairIndexOutOfRange ∧
  ∀ (op arg1 arg2 : Byte) (s : State),
    exec (.lxi .sp arg1 arg2) s = .fault .pairIndexOutOfRange ∧ decode op arg1 arg2 ≠ .lxi .sp arg1 arg2 ∧
      ∀ f, execute op arg1 arg2 s ≠ .fault f

/-- R110 (43_direct_load_store.md): `LDA a16`. -/
def Obligations.LdaLoadsA : Prop :=
  ∀ (arg1 arg2 : Byte) (s : State),
    decode 0x3A#8 arg1 arg2 = .lda arg1 arg2 ∧ (encode (.lda arg1 arg2)).length = 3 ∧
    ∃ t, exec (.lda arg1 arg2) s = .next t ∧ readReg t .a = memRead s (directAddress arg1 arg2) ∧
      SameRegsExcept [.a] s t ∧ SamePointers s t ∧ SameMemExcept [] s t

/-- R111 (43_direct_load_store.md): `STA a16`. -/
def Obligations.StaStoresA : Prop :=
  ∀ (arg1 arg2 : Byte) (s : State),
    decode 0x32#8 arg1 arg2 = .sta arg1 arg2 ∧ (encode (.sta arg1 arg2)).length = 3 ∧
    ∃ t, exec (.sta arg1 arg2) s = .next t ∧ memRead t (directAddress arg1 arg2) = readReg s .a ∧
      SameMemExcept [directAddress arg1 arg2] s t ∧ SameRegsExcept [] s t ∧ SamePointers s t

/-- R112 (43_direct_load_store.md): `STA a`, then any instructions that do not store to `a`, then `LDA a`, leaves A as it was at
the `STA`. In either variant. -/
def Obligations.StoreLoadRoundTrip : Prop :=
  ∀ (arg1 arg2 : Byte) (triples : List (Byte × Byte × Byte)) (s u : State),
    execute 0x32#8 arg1 arg2 s = .next u → NoStoreTo (directAddress arg1 arg2) triples u →
      ∃ t, executeAll ((0x32#8, arg1, arg2) :: (triples ++ [(0x3A#8, arg1, arg2)])) s = .next t ∧
        readReg t .a = readReg s .a ∧ memRead t (directAddress arg1 arg2) = readReg s .a

/-- R82 (40_decode_dispatch.md): an opcode that matches none of the five patterns leaves the state identical. -/
def Obligations.UnrecognisedOpcodeChangesNothing : Prop :=
  ∀ (op arg1 arg2 : Byte) (s : State),
    (isMovePattern op = false → isImmediatePattern op = false → isPairPattern op = false → isLoadPattern op = false →
      isStorePattern op = false → decode op arg1 arg2 = .unrec op ∧ execute op arg1 arg2 s = .next s) ∧
    exec (.unrec op) s = .next s

/-! ### The variant `M_INDIRECT = true` -/

/-- R132 (46_variant_m_indirect.md): `MOV d,M` loads from the cell at the old H:L. -/
def Obligations.MovFromMemoryUnderVariant : Prop :=
  ∀ (dst : Reg) (s : State), dst ≠ .m → s.config.mIndirect = true →
    ∃ t, exec (.mov dst .m) s = .next t ∧ readReg t dst = memRead s (bytePair (readReg s .h) (readReg s .l)) ∧
      SameRegsExcept [dst] s t ∧ SamePointers s t ∧ SameMemExcept [] s t

/-- R133 (46_variant_m_indirect.md): `MOV M,s` stores to the cell at H:L. -/
def Obligations.MovToMemoryUnderVariant : Prop :=
  ∀ (src : Reg) (s : State), src ≠ .m → s.config.mIndirect = true →
    ∃ t, exec (.mov .m src) s = .next t ∧ memRead t (bytePair (readReg s .h) (readReg s .l)) = readReg s src ∧
      SameMemExcept [bytePair (readReg s .h) (readReg s .l)] s t ∧ SameRegsExcept [] s t ∧ SamePointers s t

/-- R134 (46_variant_m_indirect.md): `MVI M,d8` stores to the cell at H:L. -/
def Obligations.MviToMemoryUnderVariant : Prop :=
  ∀ (arg1 : Byte) (s : State), s.config.mIndirect = true →
    ∃ t, exec (.mvi .m arg1) s = .next t ∧ memRead t (bytePair (readReg s .h) (readReg s .l)) = arg1 ∧
      SameMemExcept [bytePair (readReg s .h) (readReg s .l)] s t ∧ SameRegsExcept [] s t ∧ SamePointers s t

/-- 46_variant_m_indirect.md (the second sentence of R137): in either variant `MOV` and `MVI` keep their register effect for
all indices other than 6. -/
def Obligations.OtherIndicesAreNotRedirected : Prop :=
  ∀ (dst src : Reg) (arg1 : Byte) (s : State), dst ≠ .m → src ≠ .m →
    (∃ t, exec (.mov dst src) s = .next t ∧ readReg t dst = readReg s src ∧
      SameRegsExcept [dst] s t ∧ SamePointers s t ∧ SameMemExcept [] s t) ∧
    ∃ t, exec (.mvi dst arg1) s = .next t ∧ readReg t dst = arg1 ∧
      SameRegsExcept [dst] s t ∧ SamePointers s t ∧ SameMemExcept [] s t

/-- R136 (46_variant_m_indirect.md): under the variant no instruction writes or reads slot 6, and the slot, which is 0 from
creation onward, is 0 after every step and shown as 0. -/
def Obligations.SlotSixIsUnusedUnderVariant : Prop :=
  (∀ (i : Instr) (s t : State) (v : Byte), i.wf = true → s.config.mIndirect = true → exec i s = .next t →
    readReg t .m = readReg s .m ∧ exec i (writeReg s .m v) = .next (writeReg t .m v)) ∧
  (∀ s t : State, SlotSixZero s → step s = .next t → SlotSixZero t) ∧
  ∀ s : State, s.config.mIndirect = true → SlotSixZero s → inspectReg s 'M' = some 0

/-! ### All instructions -/

/-- R35 (10_state.md) and R137 (46_variant_m_indirect.md), Table R35-T: every well-formed instruction answers a next state,
changes nothing but what its row of the access matrix writes, and what it writes depends on nothing but what its row reads. -/
def Obligations.AccessMatrix : Prop :=
  ∀ (i : Instr) (s : State), i.wf = true →
    ∃ t, exec i s = .next t ∧
      (SameRegsExcept (accessOf i s).writesRegs s t ∧ SameMemExcept (accessOf i s).writesCells s t ∧
        t.pc = s.pc ∧ ((accessOf i s).writesSp = false → t.sp = s.sp)) ∧
      ∀ u : State, u.config = s.config → (∀ r ∈ (accessOf i s).readsRegs, readReg u r = readReg s r) →
        (∀ a ∈ (accessOf i s).readsCells, memRead u a = memRead s a) →
        ∃ v, exec i u = .next v ∧ (∀ r ∈ (accessOf i s).writesRegs, readReg v r = readReg t r) ∧
          (∀ a ∈ (accessOf i s).writesCells, memRead v a = memRead t a) ∧
          ((accessOf i s).writesSp = true → v.sp = t.sp)

/-- R80 (40_decode_dispatch.md): `execute` is total, cannot stop, and depends on the Processor State and the three bytes only
(the configuration apart): not on the input still to come. -/
def Obligations.ExecuteIsTotal : Prop :=
  ∀ (op arg1 arg2 : Byte) (s : State),
    ∃ t, execute op arg1 arg2 s = .next t ∧
      ∀ (cs : List Command) (acts : List HostAction),
        ∃ u, execute op arg1 arg2 { s with commands := cs, hostActions := acts } = .next u ∧
          u.pc = t.pc ∧ u.sp = t.sp ∧ u.regs = t.regs ∧ u.mem = t.mem

/-- R25 (10_state.md): `execute` neither reads nor writes the program counter; reset sets it to 0; in call-driven mode it stays
0; the sequencer advances it modulo 65536 and any 16-bit value is legal. -/
def Obligations.PcIgnoredByExecuteZeroedByResetAdvancedBySequencer : Prop :=
  (∀ (op arg1 arg2 : Byte) (s : State) (w : Word), ∃ t, execute op arg1 arg2 s = .next t ∧ t.pc = s.pc ∧
    execute op arg1 arg2 (setPc s w) = .next (setPc t w)) ∧
  (∀ s : State, (zeroAll s).pc = 0) ∧
  (∀ s t : State, CallDrivenPcZero s → step s = .next t → CallDrivenPcZero t) ∧
  ∀ s : State, ∃ t, sequencerStep s = .next t ∧
    t.pc.toNat = (s.pc.toNat + 1 + operandCount (decodeShape (memRead s s.pc))) % 65536

/-- R26 (10_state.md): `LXI SP` sets the stack pointer to any 16-bit value, no other instruction writes it, no instruction reads
it, and reset sets it to 0. -/
def Obligations.StackPointerIsOnlyWritten : Prop :=
  (∀ (w : Word) (s : State), ∃ arg1 arg2, execute 0x31#8 arg1 arg2 s = .next (setSp s w)) ∧
  (∀ (op arg1 arg2 : Byte) (s : State) (w : Word), op ≠ 0x31#8 →
    ∃ t, execute op arg1 arg2 s = .next t ∧ t.sp = s.sp ∧ execute op arg1 arg2 (setSp s w) = .next (setSp t w)) ∧
  (∀ (arg1 arg2 : Byte) (s : State) (w : Word), execute 0x31#8 arg1 arg2 (setSp s w) = execute 0x31#8 arg1 arg2 s) ∧
  ∀ s : State, (zeroAll s).sp = 0

/-! ### Steps and runs -/

/-- R142 (60_exceptions.md): a step has one kind of outcome, the next state, and so have `execute` and `zero_all` as commands. -/
def Obligations.EveryStepAnswersNextState : Prop :=
  (∀ s : State, ∃ t, step s = .next t) ∧ ∀ (c : Command) (s : State), ∃ t, performCommand c s = .next t

/-- 45_fetch_sequencer.md section 3: no instruction ends a run: the sequencer continues past `HLT` and past an unrecognised opcode,
each of length 1, nothing faults, and a machine left alone runs for ever. -/
def Obligations.NothingEndsARun : Prop :=
  (∀ s : State, memRead s s.pc = 0x76#8 ∨ isUnrecByte (memRead s s.pc) = true →
    sequencerStep s = .next (setPc s (s.pc + 1))) ∧
  ∀ s : State, NeverStops s

/-- R36 (10_state.md), R84 and R144, with log entry 2: in call-driven mode a step runs the decoded triple of the driver's next
command, a reset command (alone or with an `EXECUTE`) resets, and with no command the state stays. The triple's instruction is
well-formed. -/
def Obligations.CallDrivenStepRunsTheTriple : Prop :=
  ∀ (s : State) (rest : List Command) (op arg1 arg2 : Byte), s.config.driverMode = .callDriven →
    (decode op arg1 arg2).wf = true ∧
    step { s with commands := .execute op arg1 arg2 :: rest } = exec (decode op arg1 arg2) { s with commands := rest } ∧
    step { s with commands := .zeroAll :: rest } = .next (zeroAll { s with commands := rest }) ∧
    step { s with commands := .executeAndZeroAll op arg1 arg2 :: rest } = .next (zeroAll { s with commands := rest }) ∧
    step { s with commands := [] } = .next { s with commands := [] }

/-- R121, R122, R124 (45_fetch_sequencer.md): in program mode a step with no host action before it runs the instruction decoded
from the bytes at the program counter, on the state whose program counter has moved past them. -/
def Obligations.ProgramStepRunsTheFetchedInstruction : Prop :=
  (∀ s : State, s.config.driverMode = .program → s.hostActions = [] →
    let op := memRead s s.pc
    let n := operandCount (decodeShape op)
    let arg1 := if n ≥ 1 then memRead s (s.pc + 1) else 0
    let arg2 := if n = 2 then memRead s (s.pc + 2) else 0
    (decode op arg1 arg2).wf = true ∧
      step s = exec (decode op arg1 arg2) { s with pc := s.pc + 1 + BitVec.ofNat 16 n }) ∧
  (∀ (dst src r : Reg) (rp : Pair) (op : Byte),
    operandCount (.mov dst src) = 0 ∧ operandCount .hlt = 0 ∧ operandCount (.mvi r) = 1 ∧ operandCount (.lxi rp) = 2 ∧
      operandCount .lxiSp = 2 ∧ operandCount .lda = 2 ∧ operandCount .sta = 2 ∧ operandCount (.unrec op) = 0) ∧
  State.reset.pc = 0

/-- 45_fetch_sequencer.md section 3, with log entry 3: in program mode a step performs the host's next action: a reset, the start
of a run (reset, then load, then the start address if there is one), one sequencer step. -/
def Obligations.ProgramStepPerformsHostAction : Prop :=
  ∀ (s : State) (rest : List HostAction) (image : List (Word × Byte)) (address : Word), s.config.driverMode = .program →
    step { s with hostActions := .zeroAll :: rest } = .next (zeroAll { s with hostActions := rest }) ∧
    step { s with hostActions := .start image none :: rest } =
      .next (loadImage (zeroAll { s with hostActions := rest }) image) ∧
    step { s with hostActions := .start image (some address) :: rest } =
      .next (setPc (loadImage (zeroAll { s with hostActions := rest }) image) address) ∧
    step { s with hostActions := .sequence :: rest } = sequencerStep { s with hostActions := rest }

/-- 45_fetch_sequencer.md section 3, 92_eei_decisions.md D7, with log entry 3: the start of a run leaves all zero but the image and
the start address; in program mode every step is a sequencer step on the Processor State as it stands, or leaves a state in which
nothing of the Processor State before it remains, so that the host writes to no run under way; in call-driven mode the host's
actions do not exist: no step depends on them. -/
def Obligations.HostWritesOnlyAtTheStartOfARun : Prop :=
  (∀ (s : State) (rest : List HostAction) (image : List (Word × Byte)) (address : Option Word),
    s.config.driverMode = .program → (image.map Prod.fst).Nodup →
    ∃ t, step { s with hostActions := .start image address :: rest } = .next t ∧ t.pc = address.getD 0 ∧ t.sp = 0 ∧
      (∀ r, readReg t r = 0) ∧ (∀ c ∈ image, memRead t c.1 = c.2) ∧
      (∀ a, a ∉ image.map Prod.fst → memRead t a = 0) ∧ SameInput { s with hostActions := rest } t) ∧
  (∀ s : State, s.config.driverMode = .program →
    step s = sequencerStep { s with hostActions := s.hostActions.tail } ∨
      ∀ u : State, u.config = s.config → u.commands = s.commands → u.hostActions = s.hostActions → step u = step s) ∧
  ∀ (s : State) (acts : List HostAction), s.config.driverMode = .callDriven →
    ∃ t, step s = .next t ∧ step { s with hostActions := acts } = .next { t with hostActions := acts }

/-- 45_fetch_sequencer.md section 3: after a load every cell the image names (each once) holds its byte, and nothing else has
changed. -/
def Obligations.LoadWritesTheImage : Prop :=
  ∀ (s : State) (image : List (Word × Byte)), (image.map Prod.fst).Nodup →
    (∀ c ∈ image, memRead (loadImage s image) c.1 = c.2) ∧ SameMemExcept (image.map Prod.fst) s (loadImage s image) ∧
      SameRegsExcept [] s (loadImage s image) ∧ SamePointers s (loadImage s image) ∧ SameInput s (loadImage s image)

/-- R123 (45_fetch_sequencer.md): a sequencer step advances the program counter by 1 + n modulo 65536, whatever it executes. -/
def Obligations.SequencerAdvancesPc : Prop :=
  ∀ s : State, s.config.driverMode = .program → s.hostActions = [] →
    ∃ t, step s = .next t ∧ t.pc.toNat = (s.pc.toNat + (1 + operandCount (decodeShape (memRead s s.pc)))) % 65536

/-- R128 (45_fetch_sequencer.md): an instruction at the top of memory takes operand bytes from addresses 0x0000 and 0x0001, and the
program counter wraps; with the rule's example. -/
def Obligations.InstructionsWrapAroundTheTop : Prop :=
  (∀ s : State, operandCount (decodeShape (memRead s 0xFFFE#16)) = 2 → s.pc = 0xFFFE#16 →
    sequencerStep s = exec (decode (memRead s 0xFFFE#16) (memRead s 0xFFFF#16) (memRead s 0x0000#16)) (setPc s 0x0001#16)) ∧
  (∀ s : State, operandCount (decodeShape (memRead s 0xFFFF#16)) = 2 → s.pc = 0xFFFF#16 →
    sequencerStep s = exec (decode (memRead s 0xFFFF#16) (memRead s 0x0000#16) (memRead s 0x0001#16)) (setPc s 0x0002#16)) ∧
  (∀ s : State, operandCount (decodeShape (memRead s 0xFFFF#16)) = 1 → s.pc = 0xFFFF#16 →
    sequencerStep s = exec (decode (memRead s 0xFFFF#16) (memRead s 0x0000#16) 0) (setPc s 0x0001#16)) ∧
  ∀ s : State, memRead s 0xFFFF#16 = 0x32#8 → memRead s 0x0000#16 = 0x10#8 → memRead s 0x0001#16 = 0x00#8 → s.pc = 0xFFFF#16 →
    readReg s .a = 0x11#8 →
    ∃ t, sequencerStep s = .next t ∧ memRead t 0x0010#16 = 0x11#8 ∧ t.pc = 0x0002#16 ∧ SameMemExcept [0x0010#16] s t ∧
      SameRegsExcept [] s t ∧ t.sp = s.sp

/-- R129 (45_fetch_sequencer.md): an unrecognised opcode takes no operand bytes: the byte after it is the next opcode. -/
def Obligations.BytesAfterUnrecognisedAreOpcodes : Prop :=
  ∀ s : State, isUnrecByte (memRead s s.pc) = true →
    ∃ t, sequencerStep s = .next t ∧ fetchOpcode t = memRead s (s.pc + 1) ∧ SameMemExcept [] s t ∧ SameRegsExcept [] s t

/-- R127 (45_fetch_sequencer.md): over memory of zeros every step only advances the program counter by 1, for ever. -/
def Obligations.ZeroMemoryRunsForEver : Prop :=
  ∀ (s : State) (k : Nat), s.config.driverMode = .program → s.hostActions = [] → (∀ a, memRead s a = 0) →
    Host.Core.run core k s = .next (setPc s (s.pc + BitVec.ofNat 16 k))

/-- 20_memory.md section 4 and 70_reset_and_hazards.md section 3: a `STA` to the byte after itself is seen by the very next
fetch, and the address it stores to is the one that stood in memory before it. -/
def Obligations.StoreIsSeenByTheNextFetch : Prop :=
  ∀ s : State, s.config.driverMode = .program → s.hostActions = [] → memRead s s.pc = 0x32#8 →
    ∃ t, step s = .next t ∧ t.pc = s.pc + 3 ∧
      memRead t (directAddress (memRead s (s.pc + 1)) (memRead s (s.pc + 2))) = readReg s .a ∧
      (directAddress (memRead s (s.pc + 1)) (memRead s (s.pc + 2)) = s.pc + 3 → fetchOpcode t = readReg s .a)

/-- 20_memory.md section 5, the command list as in log entry 2: in call-driven mode with `M_INDIRECT = false` a step that changes a cell performs a reset command or
a `STA` to that cell. -/
def Obligations.OnlyStaAndResetChangeMemory : Prop :=
  ∀ (s t : State) (a : Word), s.config.driverMode = .callDriven → s.config.mIndirect = false → step s = .next t →
    memRead t a ≠ memRead s a →
    ∃ c rest, s.commands = c :: rest ∧
      (c = .zeroAll ∨ (∃ op arg1 arg2, c = .executeAndZeroAll op arg1 arg2) ∨
        ∃ arg1 arg2, c = .execute 0x32#8 arg1 arg2 ∧ directAddress arg1 arg2 = a)

/-- 00_scope.md section 4 (Table R8-T), with log entry 1: no step changes the configuration. -/
def Obligations.ConfigurationIsFixed : Prop :=
  ∀ s t : State, step s = .next t → t.config = s.config

/-- Log entries 1, 2, 3 and 13: no instruction touches the configuration or the input still to come, and neither does
`zero_all`. -/
def Obligations.InstructionsLeaveConfigurationAndInput : Prop :=
  (∀ (i : Instr) (s t : State), exec i s = .next t → SameInput s t) ∧ ∀ s : State, SameInput s (zeroAll s)

/-- Log entry 5: every step keeps the memory's canonical form. -/
def Obligations.StepKeepsCanonicalMemory : Prop :=
  ∀ s t : State, CanonicalMemory s → step s = .next t → CanonicalMemory t

/-- 10_state.md section 8 and log entry 5: the invariants hold at reset, in either variant and either driver mode. -/
def Obligations.InvariantsHoldAtReset : Prop :=
  ∀ c : Config, CanonicalMemory { State.reset with config := c } ∧ SlotSixZero { State.reset with config := c } ∧
    CallDrivenPcZero { State.reset with config := c }

/-- Log entry 4: an instruction placed with `placeInstruction` is the one the very next step runs, in either driver mode: in
call-driven mode on the state as it was, in program mode on the state with its bytes at the program counter and the counter
moved past them. -/
def Obligations.PlacedInstructionRunsNext : Prop :=
  ∀ (s : State) (op arg1 arg2 : Byte),
    (s.config.driverMode = .callDriven → step (placeInstruction s op arg1 arg2) = exec (decode op arg1 arg2) s) ∧
    (s.config.driverMode = .program →
      ∃ u, step (placeInstruction s op arg1 arg2) = exec (decode op arg1 arg2) u ∧
        u.pc = s.pc + 1 + BitVec.ofNat 16 (operandCount (decodeShape op)) ∧ u.sp = s.sp ∧ u.regs = s.regs ∧
        SameInput s u ∧ memRead u s.pc = op ∧ memRead u (s.pc + 1) = arg1 ∧ memRead u (s.pc + 2) = arg2 ∧
        SameMemExcept [s.pc, s.pc + 1, s.pc + 2] s u)

/-! ### The inspection surface -/

/-- R38 (10_state.md): the ordered name table, and that the search gives each listed name its register. -/
def Obligations.RegisterNameTable : Prop :=
  registerNames.map (fun row => (row.1, (regField row.2).toNat)) =
    [('B', 0), ('C', 1), ('D', 2), ('E', 3), ('H', 4), ('L', 5), ('M', 6), ('A', 7)] ∧
  ∀ (name : Char) (r : Reg), searchName registerNames name = some r ↔ (name, r) ∈ registerNames

/-- 10_state.md section 10, 92_eei_decisions.md D10: the surface shows the pointers, the register of each listed name and, for a
memory range, its cells in order, going on at cell 0 after the last cell. A name that is not listed shows nothing (log entry
9). -/
def Obligations.InspectionShowsTheState : Prop :=
  ∀ (s : State) (start : Word) (length : Nat) (name : Char),
    inspectPc s = s.pc ∧ inspectSp s = s.sp ∧
      (∀ r, (name, r) ∈ registerNames → inspectReg s name = some (readReg s r)) ∧
      ((∀ r, (name, r) ∉ registerNames) → inspectReg s name = none) ∧
      (inspectRange s start length).length = length ∧
      ∀ i, i < length →
        (inspectRange s start length)[i]? = some (memRead s (BitVec.ofNat 16 ((start.toNat + i) % 65536)))

/-- 30_encoding.md section 5 (Table R72-T): the bytes of a program that begins with a well-formed instruction decode to that
instruction and the bytes of the rest; `DB n` emits `n`. -/
def Obligations.AssembledProgramsDecodeLineByLine : Prop :=
  (∀ (i : Instr) (rest : List Line), i.wf = true → decodeStream (assemble (.instr i :: rest)) = .ok (i, assemble rest)) ∧
  (∀ (n : Byte) (rest : List Line), assemble (.db n :: rest) = n :: assemble rest) ∧
  ∀ before rest : List Line, assemble (before ++ rest) = assemble before ++ assemble rest
end

