-- ==== Sys2Proof/Laws/Decode.lean ====
section
/-! SUPPORT. The decoder's small lemmas: field codes, and that what it gives is well-formed. -/

namespace Sys2Proof

@[simp] theorem regOfField_regField (r : Reg) : regOfField (regField r) = r := by cases r <;> rfl

@[simp] theorem pairOfField_pairField (rp : Pair) : pairOfField (pairField rp) = rp := by cases rp <;> rfl

/-- A byte that falls through all five patterns is one of the 178 of R68. -/
theorem unrec_of_no_pattern (op : Byte) : (isMovePattern op || isImmediatePattern op || isPairPattern op ||
    isLoadPattern op || isStorePattern op) = !isUnrecByte op := by
  revert op; decide

/-- What a shape becomes with its operands is well-formed for every opcode byte. -/
theorem decode_wf (op arg1 arg2 : Byte) : (decode op arg1 arg2).wf = true := by
  have hpat := unrec_of_no_pattern op
  unfold decode decodeShape
  dsimp only
  split
  · split <;> rename_i hm
    · rfl
    · simpa [withOperands, Instr.wf, Decidable.imp_iff_not_or] using hm
  split
  · rfl
  split
  · split <;> rename_i hp
    · rfl
    · simpa [withOperands, Instr.wf] using hp
  split
  · rfl
  split
  · rfl
  · simp_all [withOperands, Instr.wf]

/-- The decoder uses as many operand bytes as the encoder writes. -/
theorem operandBytes_length (op arg1 arg2 : Byte) :
    (operandBytes (decode op arg1 arg2)).length = operandCount (decodeShape op) := by
  rw [decode]
  cases decodeShape op <;> rfl

theorem operandCount_cases (sh : Shape) : operandCount sh = 0 ∨ operandCount sh = 1 ∨ operandCount sh = 2 := by
  cases sh <;> simp [operandCount]

/-- What a shape does not use may be any byte. -/
theorem decode_unused (op arg1 arg2 : Byte) :
    decode op arg1 arg2 = decode op (if 1 ≤ operandCount (decodeShape op) then arg1 else 0)
      (if operandCount (decodeShape op) = 2 then arg2 else 0) := by
  unfold decode
  cases decodeShape op <;> rfl

/-- The encoder gives back the opcode byte of what was decoded. -/
theorem opcodeOf_decode (op arg1 arg2 : Byte) : opcodeOf (decode op arg1 arg2) = op := by
  have h : opcodeOf (decode op arg1 arg2) = opcodeOf (decode op 0 0) := by
    unfold decode; cases decodeShape op <;> rfl
  rw [h]
  clear h
  revert op
  decide

/-- Everything the stream decoder can answer when there is an opcode byte. -/
theorem decodeStream_cons (op : Byte) (rest : List Byte) :
    decodeStream (op :: rest) =
      if rest.length < operandCount (decodeShape op) then .error .missingOperand
      else .ok (decode op (rest.getD 0 0) (rest.getD 1 0), rest.drop (operandCount (decodeShape op))) := by
  have hu := decode_unused op (rest.getD 0 0) (rest.getD 1 0)
  unfold decodeStream
  rcases operandCount_cases (decodeShape op) with e | e | e <;> simp only [e] at hu ⊢ <;> rw [hu]
  · simp
  · rcases rest with _ | ⟨arg1, after⟩ <;> simp
  · rcases rest with _ | ⟨arg1, _ | ⟨arg2, after⟩⟩ <;> simp

end Sys2Proof
end

