-- ==== Sys2Proof/Laws/State.lean ====
section
/-! SUPPORT. One lemma per field and update of the state, each true by unfolding once. -/

namespace Sys2Proof.Machine

variable (s : State)

@[simp] theorem writeReg_pc (r : Reg) (v : Byte) : (writeReg s r v).pc = s.pc := rfl
@[simp] theorem writeReg_sp (r : Reg) (v : Byte) : (writeReg s r v).sp = s.sp := rfl
@[simp] theorem writeReg_regs (r : Reg) (v : Byte) : (writeReg s r v).regs = s.regs.set r v := rfl
@[simp] theorem writeReg_mem (r : Reg) (v : Byte) : (writeReg s r v).mem = s.mem := rfl
@[simp] theorem writeReg_config (r : Reg) (v : Byte) : (writeReg s r v).config = s.config := rfl
@[simp] theorem writeReg_commands (r : Reg) (v : Byte) : (writeReg s r v).commands = s.commands := rfl
@[simp] theorem writeReg_hostActions (r : Reg) (v : Byte) : (writeReg s r v).hostActions = s.hostActions := rfl

@[simp] theorem setSp_pc (v : Word) : (setSp s v).pc = s.pc := rfl
@[simp] theorem setSp_sp (v : Word) : (setSp s v).sp = v := rfl
@[simp] theorem setSp_regs (v : Word) : (setSp s v).regs = s.regs := rfl
@[simp] theorem setSp_mem (v : Word) : (setSp s v).mem = s.mem := rfl
@[simp] theorem setSp_config (v : Word) : (setSp s v).config = s.config := rfl
@[simp] theorem setSp_commands (v : Word) : (setSp s v).commands = s.commands := rfl
@[simp] theorem setSp_hostActions (v : Word) : (setSp s v).hostActions = s.hostActions := rfl

@[simp] theorem setPc_pc (v : Word) : (setPc s v).pc = v := rfl
@[simp] theorem setPc_sp (v : Word) : (setPc s v).sp = s.sp := rfl
@[simp] theorem setPc_regs (v : Word) : (setPc s v).regs = s.regs := rfl
@[simp] theorem setPc_mem (v : Word) : (setPc s v).mem = s.mem := rfl
@[simp] theorem setPc_config (v : Word) : (setPc s v).config = s.config := rfl
@[simp] theorem setPc_commands (v : Word) : (setPc s v).commands = s.commands := rfl
@[simp] theorem setPc_hostActions (v : Word) : (setPc s v).hostActions = s.hostActions := rfl

@[simp] theorem memWrite_pc (a : Word) (v : Byte) : (memWrite s a v).pc = s.pc := rfl
@[simp] theorem memWrite_sp (a : Word) (v : Byte) : (memWrite s a v).sp = s.sp := rfl
@[simp] theorem memWrite_regs (a : Word) (v : Byte) : (memWrite s a v).regs = s.regs := rfl
@[simp] theorem memWrite_mem (a : Word) (v : Byte) : (memWrite s a v).mem = Memory.store s.mem a.toNat v := rfl
@[simp] theorem memWrite_config (a : Word) (v : Byte) : (memWrite s a v).config = s.config := rfl
@[simp] theorem memWrite_commands (a : Word) (v : Byte) : (memWrite s a v).commands = s.commands := rfl
@[simp] theorem memWrite_hostActions (a : Word) (v : Byte) : (memWrite s a v).hostActions = s.hostActions := rfl

@[simp] theorem zeroAll_pc : (zeroAll s).pc = 0 := rfl
@[simp] theorem zeroAll_sp : (zeroAll s).sp = 0 := rfl
@[simp] theorem zeroAll_regs : (zeroAll s).regs = Regs.zero := rfl
@[simp] theorem zeroAll_mem : (zeroAll s).mem = [] := rfl
@[simp] theorem zeroAll_config : (zeroAll s).config = s.config := rfl
@[simp] theorem zeroAll_commands : (zeroAll s).commands = s.commands := rfl
@[simp] theorem zeroAll_hostActions : (zeroAll s).hostActions = s.hostActions := rfl

end Sys2Proof.Machine
end

