-- ==== Sys2Proof/Laws/Memory.lean ====
section
/-! SUPPORT. What a read gives after a store, and that every memory operation keeps the canonical form. The read laws hold of
every list of cells, canonical or not. -/

namespace Sys2Proof.Machine

@[simp] theorem Memory.lookup_nil (a : Nat) : Memory.lookup [] a = 0 := rfl

theorem Memory.lookup_erase (m : List Host.Cell) (a b : Nat) :
    Memory.lookup (Memory.erase m a) b = if b = a then 0 else Memory.lookup m b := by
  induction m with
  | nil => simp [Memory.erase]
  | cons c rest ih =>
    by_cases hc : c.1 = a
    · rw [Memory.erase, if_pos hc, ih, Memory.lookup]
      split <;> rename_i hb
      · rfl
      · rw [if_neg (by omega)]
    · rw [Memory.erase, if_neg hc, Memory.lookup, Memory.lookup, ih]
      by_cases hcb : c.1 = b
      · rw [if_pos hcb, if_pos hcb, if_neg (by omega)]
      · rw [if_neg hcb, if_neg hcb]

theorem Memory.erase_absent (m : List Host.Cell) (a : Nat) : ∀ c ∈ Memory.erase m a, c ∈ m ∧ c.1 ≠ a := by
  induction m with
  | nil => simp [Memory.erase]
  | cons c rest ih =>
    intro d hd
    by_cases hc : c.1 = a
    · rw [Memory.erase, if_pos hc] at hd
      exact ⟨.tail _ (ih d hd).1, (ih d hd).2⟩
    · rw [Memory.erase, if_neg hc] at hd
      rcases List.mem_cons.mp hd with rfl | hd
      · exact ⟨.head _, hc⟩
      · exact ⟨.tail _ (ih d hd).1, (ih d hd).2⟩

theorem Memory.mem_insert (m : List Host.Cell) (a : Nat) (v : Byte) :
    ∀ c ∈ Memory.insert m a v, c = (a, v) ∨ c ∈ m := by
  induction m with
  | nil => simp [Memory.insert]
  | cons c rest ih =>
    intro d hd
    rw [Memory.insert] at hd
    split at hd
    · simpa using hd
    · rcases List.mem_cons.mp hd with rfl | hd
      · simp
      · rcases ih d hd with h | h <;> simp [h]

theorem Memory.lookup_insert (m : List Host.Cell) (a b : Nat) (v : Byte) (habs : ∀ c ∈ m, c.1 ≠ a) :
    Memory.lookup (Memory.insert m a v) b = if b = a then v else Memory.lookup m b := by
  induction m with
  | nil => simp [Memory.insert, Memory.lookup, unlistedByte, eq_comm]
  | cons c rest ih =>
    have hc : c.1 ≠ a := habs c (.head _)
    have ih := ih fun d hd => habs d (.tail _ hd)
    rw [Memory.insert]
    split
    · simp only [Memory.lookup, eq_comm]
    · rw [Memory.lookup, ih, Memory.lookup]
      by_cases hcb : c.1 = b
      · rw [if_pos hcb, if_pos hcb, if_neg (by omega)]
      · rw [if_neg hcb, if_neg hcb]

/-- A read after a store: the stored byte at that address, the old byte at every other. -/
theorem Memory.lookup_store (m : List Host.Cell) (a b : Nat) (v : Byte) :
    Memory.lookup (Memory.store m a v) b = if b = a then v else Memory.lookup m b := by
  rw [Memory.store]
  split <;> rename_i hv
  · subst hv; exact Memory.lookup_erase m a b
  · rw [Memory.lookup_insert _ _ _ _ fun c hc => (Memory.erase_absent m a c hc).2, Memory.lookup_erase]
    split <;> rfl

theorem Memory.erase_wf {m : List Host.Cell} (a : Nat) (h : Memory.wf m) : Memory.wf (Memory.erase m a) := by
  refine ⟨?_, fun c hc => h.2 c (Memory.erase_absent m a c hc).1⟩
  have hs := h.1
  clear h
  induction m with
  | nil => simp [Memory.erase]
  | cons c rest ih =>
    rw [List.pairwise_cons] at hs
    rw [Memory.erase]
    split
    · exact ih hs.2
    · exact List.pairwise_cons.mpr ⟨fun d hd => hs.1 d (Memory.erase_absent rest a d hd).1, ih hs.2⟩

theorem Memory.insert_wf {m : List Host.Cell} {a : Nat} {v : Byte} (h : Memory.wf m) (ha : a < 65536)
    (hv : v ≠ unlistedByte) (habs : ∀ c ∈ m, c.1 ≠ a) : Memory.wf (Memory.insert m a v) := by
  refine ⟨?_, fun c hc => ?_⟩
  · have hs := h.1
    clear h
    induction m with
    | nil => simp [Memory.insert]
    | cons c rest ih =>
      have hc : c.1 ≠ a := habs c (.head _)
      rw [List.pairwise_cons] at hs
      rw [Memory.insert]
      split <;> rename_i hlt
      · refine List.pairwise_cons.mpr ⟨fun d hd => ?_, List.pairwise_cons.mpr hs⟩
        rcases List.mem_cons.mp hd with rfl | hd
        · exact hlt
        · exact hlt.trans (hs.1 d hd)
      · refine List.pairwise_cons.mpr ⟨fun d hd => ?_, ih (fun d hd => habs d (.tail _ hd)) hs.2⟩
        rcases Memory.mem_insert rest a v d hd with rfl | hd
        · show c.1 < a; omega
        · exact hs.1 d hd
  · rcases Memory.mem_insert m a v c hc with rfl | hc
    · exact ⟨ha, hv⟩
    · exact h.2 c hc

/-- A store inside the address space keeps the canonical form. -/
theorem Memory.store_wf {m : List Host.Cell} {a : Nat} (v : Byte) (h : Memory.wf m) (ha : a < 65536) :
    Memory.wf (Memory.store m a v) := by
  rw [Memory.store]
  split <;> rename_i hv
  · exact Memory.erase_wf a h
  · exact Memory.insert_wf (Memory.erase_wf a h) ha hv fun c hc => (Memory.erase_absent m a c hc).2

theorem memWrite_wf {s : State} (a : Word) (v : Byte) (h : Memory.wf s.mem) : Memory.wf (memWrite s a v).mem :=
  Memory.store_wf v h a.isLt

theorem loadImage_wf {s : State} (image : List (Word × Byte)) (h : Memory.wf s.mem) :
    Memory.wf (loadImage s image).mem := by
  induction image generalizing s with
  | nil => exact h
  | cons c rest ih => exact ih (memWrite_wf c.1 c.2 h)

theorem zeroAll_wf (s : State) : Memory.wf (zeroAll s).mem := by
  rw [zeroAll_mem]; decide

theorem startRun_wf (image : List (Word × Byte)) (address : Option Word) (s : State) :
    Memory.wf (startRun image address s).mem :=
  loadImage_wf (s := zeroAll s) image (zeroAll_wf s)

theorem reset_wf : Memory.wf State.reset.mem := by decide

end Sys2Proof.Machine
end

