-- ==== Sys2Proof/Laws/Ops.lean ====
section
/-! SUPPORT. One lemma for each shared operation over registers, memory and operands: what it reads or does. -/

namespace Sys2Proof.Machine

/-! ### Registers -/

theorem Regs.get_set (x : Regs) (r r' : Reg) (v : Byte) :
    (x.set r v).get r' = if r' = r then v else x.get r' := by
  cases r <;> cases r' <;> rfl

theorem readReg_writeReg (s : State) (r r' : Reg) (v : Byte) :
    readReg (writeReg s r v) r' = if r' = r then v else readReg s r' :=
  Regs.get_set s.regs r r' v

@[simp] theorem readReg_setSp (s : State) (v : Word) (r : Reg) : readReg (setSp s v) r = readReg s r := rfl
@[simp] theorem readReg_setPc (s : State) (v : Word) (r : Reg) : readReg (setPc s v) r = readReg s r := rfl
@[simp] theorem readReg_memWrite (s : State) (a : Word) (v : Byte) (r : Reg) :
    readReg (memWrite s a v) r = readReg s r := rfl
@[simp] theorem readReg_zeroAll (s : State) (r : Reg) : readReg (zeroAll s) r = 0 := by cases r <;> rfl

/-! ### Memory -/

theorem memRead_memWrite (s : State) (a b : Word) (v : Byte) :
    memRead (memWrite s a v) b = if b = a then v else memRead s b := by
  rw [memRead, memWrite_mem, Memory.lookup_store, memRead]
  simp only [BitVec.toNat_inj]

@[simp] theorem memRead_writeReg (s : State) (r : Reg) (v : Byte) (a : Word) :
    memRead (writeReg s r v) a = memRead s a := rfl
@[simp] theorem memRead_setSp (s : State) (v a : Word) : memRead (setSp s v) a = memRead s a := rfl
@[simp] theorem memRead_setPc (s : State) (v a : Word) : memRead (setPc s v) a = memRead s a := rfl
@[simp] theorem memRead_zeroAll (s : State) (a : Word) : memRead (zeroAll s) a = 0 := rfl

/-- Loading an image changes memory only. -/
theorem loadImage_eq (s : State) (image : List (Word × Byte)) :
    loadImage s image = { s with mem := (loadImage s image).mem } := by
  induction image generalizing s with
  | nil => rfl
  | cons c rest ih => rw [loadImage, ih]; rfl

/-- A cell the image does not name keeps its byte. -/
theorem memRead_loadImage_of_absent (s : State) (image : List (Word × Byte)) (a : Word)
    (h : ∀ c ∈ image, c.1 ≠ a) : memRead (loadImage s image) a = memRead s a := by
  induction image generalizing s with
  | nil => rfl
  | cons c rest ih =>
    rw [loadImage, ih _ fun d hd => h d (.tail _ hd), memRead_memWrite, if_neg (h c (.head _)).symm]

/-! ### The start of a run -/

@[simp] theorem startRun_pc (image : List (Word × Byte)) (address : Option Word) (s : State) :
    (startRun image address s).pc = address.getD 0 := rfl

/-- But for the program counter and memory, the start of a run is a reset. -/
theorem startRun_eq (image : List (Word × Byte)) (address : Option Word) (s : State) :
    startRun image address s =
      { zeroAll s with pc := address.getD 0, mem := (loadImage (zeroAll s) image).mem } := by
  rw [startRun, loadImage_eq]; rfl

@[simp] theorem startRun_sp (image : List (Word × Byte)) (address : Option Word) (s : State) :
    (startRun image address s).sp = 0 := by rw [startRun_eq]; rfl
@[simp] theorem startRun_regs (image : List (Word × Byte)) (address : Option Word) (s : State) :
    (startRun image address s).regs = Regs.zero := by rw [startRun_eq]; rfl
@[simp] theorem startRun_config (image : List (Word × Byte)) (address : Option Word) (s : State) :
    (startRun image address s).config = s.config := by rw [startRun_eq]; rfl
@[simp] theorem startRun_commands (image : List (Word × Byte)) (address : Option Word) (s : State) :
    (startRun image address s).commands = s.commands := by rw [startRun_eq]; rfl
@[simp] theorem startRun_hostActions (image : List (Word × Byte)) (address : Option Word) (s : State) :
    (startRun image address s).hostActions = s.hostActions := by rw [startRun_eq]; rfl
@[simp] theorem memRead_startRun (image : List (Word × Byte)) (address : Option Word) (s : State) (a : Word) :
    memRead (startRun image address s) a = memRead (loadImage (zeroAll s) image) a := rfl

/-! ### Operands -/

/-- Where the operand is not redirected, writing it writes the register. -/
theorem writeOperand_direct {s : State} {r : Reg} (h : isIndirect s r = false) (v : Byte) :
    writeOperand s r v = writeReg s r v := by simp [writeOperand, h]

/-- Where it is redirected, writing it writes the cell at H:L. -/
theorem writeOperand_indirect {s : State} {r : Reg} (h : isIndirect s r = true) (v : Byte) :
    writeOperand s r v = memWrite s (hlAddress s) v := by simp [writeOperand, h]

theorem readOperand_direct {s : State} {r : Reg} (h : isIndirect s r = false) : readOperand s r = readReg s r := by
  simp [readOperand, h]

theorem readOperand_indirect {s : State} {r : Reg} (h : isIndirect s r = true) :
    readOperand s r = memRead s (hlAddress s) := by simp [readOperand, h]

/-- Only index 6 under `M_INDIRECT` is redirected. -/
theorem isIndirect_iff (s : State) (r : Reg) : isIndirect s r = true ↔ s.config.mIndirect = true ∧ r = .m := by
  simp [isIndirect]

@[simp] theorem bytePair_toNat (hi lo : Byte) : (bytePair hi lo).toNat = 256 * hi.toNat + lo.toNat := by
  have hh := hi.isLt
  have hl := lo.isLt
  simp only [bytePair, BitVec.toNat_or, BitVec.toNat_shiftLeft, BitVec.toNat_setWidth, Nat.shiftLeft_eq]
  rw [Nat.mod_eq_of_lt (show hi.toNat < 2 ^ 16 by omega), Nat.mod_eq_of_lt (show lo.toNat < 2 ^ 16 by omega),
    Nat.mod_eq_of_lt (show hi.toNat * 2 ^ 8 < 2 ^ 16 by omega), Nat.mul_comm, ← Nat.two_pow_add_eq_or_of_lt hl]

/-- The resolver answers registers for every pair but SP. -/
theorem getRpIndices_ok (rp : Pair) (h : rp ≠ .sp) : ∃ p, getRpIndices rp = .ok p := by
  cases rp <;> first | exact ⟨_, rfl⟩ | exact absurd rfl h

end Sys2Proof.Machine
end

