-- ==== Sys2Proof/Laws/Exec.lean ====
section
/-! SUPPORT. What an instruction, a command, a host action and a step can do, said once. -/

namespace Sys2Proof.Machine

/-! ### One equation per instruction -/

@[simp] theorem exec_hlt (s : State) : exec .hlt s = .next s := rfl
@[simp] theorem exec_mov (dst src : Reg) (s : State) :
    exec (.mov dst src) s = .next (writeOperand s dst (readOperand s src)) := rfl
@[simp] theorem exec_mvi (r : Reg) (arg1 : Byte) (s : State) :
    exec (.mvi r arg1) s = .next (writeOperand s r arg1) := rfl
@[simp] theorem exec_lxiSp (arg1 arg2 : Byte) (s : State) :
    exec (.lxiSp arg1 arg2) s = .next (setSp s (immediate16 arg1 arg2)) := rfl
@[simp] theorem exec_lda (arg1 arg2 : Byte) (s : State) :
    exec (.lda arg1 arg2) s = .next (writeReg s .a (memRead s (directAddress arg1 arg2))) := rfl
@[simp] theorem exec_sta (arg1 arg2 : Byte) (s : State) :
    exec (.sta arg1 arg2) s = .next (memWrite s (directAddress arg1 arg2) (readReg s .a)) := rfl
@[simp] theorem exec_unrec (op : Byte) (s : State) : exec (.unrec op) s = .next s := rfl

/-- `LXI` with a pair writes the two registers the resolver gives. -/
theorem exec_lxi {rp : Pair} {high low : Reg} (h : getRpIndices rp = .ok (high, low)) (arg1 arg2 : Byte) (s : State) :
    exec (.lxi rp arg1 arg2) s = .next (writeReg (writeReg s low arg1) high arg2) := by
  show execLxi rp arg1 arg2 s = _
  rw [execLxi, h]

/-! ### Inversion: everything an instruction, a command, an action or a step can do -/

/-- An operand write is a register write or a store at H:L. -/
theorem writeOperand_cases (s : State) (r : Reg) (v : Byte) :
    writeOperand s r v = writeReg s r v ∨ writeOperand s r v = memWrite s (hlAddress s) v := by
  unfold writeOperand
  split
  · exact .inr rfl
  · exact .inl rfl

/-- An instruction that answers a next state changes nothing, writes one register or the two of a pair, sets the stack pointer
or stores one byte. -/
theorem exec_next_cases {i : Instr} {s t : State} (h : exec i s = .next t) :
    t = s ∨ (∃ r v, t = writeReg s r v) ∨
      (∃ rp high low v w, getRpIndices rp = .ok (high, low) ∧ t = writeReg (writeReg s low v) high w) ∨
      (∃ v, t = setSp s v) ∨ ∃ a v, t = memWrite s a v := by
  cases i with
  | hlt => cases h; exact .inl rfl
  | unrec op => cases h; exact .inl rfl
  | mov dst src =>
    cases h
    rcases writeOperand_cases s dst (readOperand s src) with e | e <;> rw [e]
    · exact .inr (.inl ⟨_, _, rfl⟩)
    · exact .inr (.inr (.inr (.inr ⟨_, _, rfl⟩)))
  | mvi r arg1 =>
    cases h
    rcases writeOperand_cases s r arg1 with e | e <;> rw [e]
    · exact .inr (.inl ⟨_, _, rfl⟩)
    · exact .inr (.inr (.inr (.inr ⟨_, _, rfl⟩)))
  | lxiSp arg1 arg2 => cases h; exact .inr (.inr (.inr (.inl ⟨_, rfl⟩)))
  | lda arg1 arg2 => cases h; exact .inr (.inl ⟨_, _, rfl⟩)
  | sta arg1 arg2 => cases h; exact .inr (.inr (.inr (.inr ⟨_, _, rfl⟩)))
  | lxi rp arg1 arg2 =>
    cases rp <;> cases h
    · exact .inr (.inr (.inl ⟨.bc, .b, .c, _, _, rfl, rfl⟩))
    · exact .inr (.inr (.inl ⟨.de, .d, .e, _, _, rfl, rfl⟩))
    · exact .inr (.inr (.inl ⟨.hl, .h, .l, _, _, rfl, rfl⟩))

/-- No instruction writes the program counter, the configuration or the input. -/
theorem exec_next_keeps {i : Instr} {s t : State} (h : exec i s = .next t) :
    t.pc = s.pc ∧ t.config = s.config ∧ t.commands = s.commands ∧ t.hostActions = s.hostActions := by
  rcases exec_next_cases h with rfl | ⟨r, v, rfl⟩ | ⟨_, _, _, v, w, -, rfl⟩ | ⟨v, rfl⟩ | ⟨a, v, rfl⟩ <;> simp

/-- A well-formed instruction answers a next state or is `LXI` with a pair, whose resolver answers. -/
theorem exec_of_wf {i : Instr} (h : i.wf = true) (s : State) : ∃ t, exec i s = .next t := by
  cases i with
  | lxi rp arg1 arg2 => cases rp <;> first | exact ⟨_, rfl⟩ | cases h
  | _ => exact ⟨_, rfl⟩

/-- What the sequencer does on an opcode byte of a given shape. -/
theorem sequencerStep_of_shape {s : State} {sh : Shape} (h : decodeShape (fetchOpcode s) = sh) :
    sequencerStep s =
      exec (withOperands sh (if 1 ≤ operandCount sh then memRead s (s.pc + 1) else 0)
        (if operandCount sh = 2 then memRead s (s.pc + 2) else 0))
        (setPc s (s.pc + 1 + BitVec.ofNat 16 (operandCount sh))) := by
  subst h
  rfl

/-- A step is idle, an `execute`, a reset, the start of a run or a sequencer step. -/
theorem step_cases (s : State) :
    step s = .next s ∨
    (∃ op arg1 arg2 cs, step s = execute op arg1 arg2 { s with commands := cs }) ∨
    (∃ cs, step s = .next (zeroAll { s with commands := cs })) ∨
    (∃ acts, step s = .next (zeroAll { s with hostActions := acts })) ∨
    (∃ image address acts, step s = .next (startRun image address { s with hostActions := acts })) ∨
    ∃ acts, step s = sequencerStep { s with hostActions := acts } := by
  obtain ⟨pc, sp, regs, mem, ⟨mode, ind⟩, commands, hostActions⟩ := s
  cases mode with
  | callDriven =>
    cases commands with
    | nil => exact .inl rfl
    | cons c rest =>
      cases c with
      | execute op arg1 arg2 => exact .inr (.inl ⟨op, arg1, arg2, rest, rfl⟩)
      | zeroAll => exact .inr (.inr (.inl ⟨rest, rfl⟩))
      | executeAndZeroAll op arg1 arg2 => exact .inr (.inr (.inl ⟨rest, rfl⟩))
  | program =>
    cases hostActions with
    | nil => exact .inr (.inr (.inr (.inr (.inr ⟨[], rfl⟩))))
    | cons act rest =>
      cases act with
      | zeroAll => exact .inr (.inr (.inr (.inl ⟨rest, rfl⟩)))
      | start image address => exact .inr (.inr (.inr (.inr (.inl ⟨image, address, rest, rfl⟩))))
      | sequence => exact .inr (.inr (.inr (.inr (.inr ⟨rest, rfl⟩))))

end Sys2Proof.Machine
end

