-- ==== Sys2Proof/Laws/PerInstr.lean ====
section
/-! SUPPORT. Statements about every instruction as syntax, one lemma per constructor. Family EncodedLength: the encoding of an
instruction is as long as Table R60-T of spec 30_encoding.md says. -/

namespace Sys2Proof.Laws.EncodedLength

/-- The length in bytes of an instruction's encoding (Table R60-T). -/
def Statement (i : Instr) : Prop :=
  (encode i).length =
    match i with
    | .hlt => 1
    | .mov _ _ => 1
    | .mvi _ _ => 2
    | .lxiSp _ _ => 3
    | .lxi _ _ _ => 3
    | .lda _ _ => 3
    | .sta _ _ => 3
    | .unrec _ => 1

theorem hlt : Statement .hlt := rfl
theorem mov (dst src : Reg) : Statement (.mov dst src) := rfl
theorem mvi (r : Reg) (arg1 : Byte) : Statement (.mvi r arg1) := rfl
theorem lxiSp (arg1 arg2 : Byte) : Statement (.lxiSp arg1 arg2) := rfl
theorem lxi (rp : Pair) (arg1 arg2 : Byte) : Statement (.lxi rp arg1 arg2) := rfl
theorem lda (arg1 arg2 : Byte) : Statement (.lda arg1 arg2) := rfl
theorem sta (arg1 arg2 : Byte) : Statement (.sta arg1 arg2) := rfl
theorem unrec (op : Byte) : Statement (.unrec op) := rfl

end Sys2Proof.Laws.EncodedLength
end

