-- ==== Sys2Proof/Laws/Run.lean ====
section
/-! SUPPORT. The one induction over runs, and the induction over sequences of triples. -/

namespace Sys2Proof.Machine

/-- A property that every step from it answers and keeps holds along every run. -/
theorem run_induction {P : State → Prop} (hstep : ∀ s, P s → ∃ t, step s = .next t ∧ P t) (k : Nat) :
    ∀ s, P s → ∃ t, Host.Core.run core k s = .next t ∧ P t := by
  induction k with
  | zero => exact fun s hs => ⟨s, rfl, hs⟩
  | succ k ih =>
    intro s hs
    obtain ⟨u, hu, hPu⟩ := hstep s hs
    obtain ⟨t, ht, hPt⟩ := ih u hPu
    refine ⟨t, ?_, hPt⟩
    have hcore : core.step s = .next u := hu
    simpa only [Host.Core.run, hcore] using ht

/-- A sequence of triples that answers a next state answers one at its first triple. -/
theorem executeAll_cons {op arg1 arg2 : Byte} {rest : List (Byte × Byte × Byte)} {s t : State}
    (h : executeAll ((op, arg1, arg2) :: rest) s = .next t) :
    ∃ u, execute op arg1 arg2 s = .next u ∧ executeAll rest u = .next t := by
  rw [executeAll] at h
  cases hu : execute op arg1 arg2 s with
  | next u => rw [hu] at h; exact ⟨u, rfl, h⟩
  | fault f => rw [hu] at h; cases h
  | refused r => rw [hu] at h; cases h

end Sys2Proof.Machine
end

