-- ==== Sys2Proof/Tests/Slice0.lean ====
section
/-! SUPPORT. The model's own tests: the vectors of spec 95_test_vectors.md (V and S numbers), words written out from the
encodings, one ill-formed term for each check, and for each statement with hypotheses a witness that meets them. -/

namespace Sys2Proof.Tests

open Sys2Proof.Machine

/-- The state an answer holds, if it is a next state. -/
def after (o : Result) : Option State :=
  match o with
  | .next t => some t
  | _ => none

/-- The zero state with some registers. -/
def withRegs (x : Regs) : State := { State.reset with regs := x }

/-- The zero state in program mode, with a memory image and a program counter. -/
def programAt (pc : Word) (image : List (Word × Byte)) : State :=
  setPc (loadImage { State.reset with config := { driverMode := .program, mIndirect := false } } image) pc

/-- The zero state under `M_INDIRECT`, with H:L = 0x2010 and the cell there. -/
def indirectAt (cell : Byte) : State :=
  memWrite { State.reset with config := { driverMode := .callDriven, mIndirect := true },
                              regs := { Regs.zero with h := 0x20, l := 0x10 } } 0x2010 cell

/-! ### Well-formedness: one ill-formed term for each check, and its well-formed neighbour -/

theorem test_mov_m_m_is_ill_formed : Instr.wf (.mov .m .m) = false ∧ Instr.wf (.mov .m .a) = true := by decide
theorem test_lxi_with_sp_is_ill_formed : Instr.wf (.lxi .sp 0 0) = false ∧ Instr.wf (.lxi .hl 0 0) = true := by decide
theorem test_unrec_of_a_recognised_byte_is_ill_formed :
    Instr.wf (.unrec 0x47) = false ∧ Instr.wf (.unrec 0x76) = false ∧ Instr.wf (.unrec 0x33) = true := by decide

/-! ### Decoding: words written out bit by bit from Table R61-T -/

theorem test_decode_hlt : decodeStream [0b01_110_110#8] = .ok (.hlt, []) := by decide
theorem test_decode_mov : decodeStream [0b01_000_111#8] = .ok (.mov .b .a, []) := by decide
theorem test_decode_mvi : decodeStream [0b00_101_110#8, 0x06#8] = .ok (.mvi .l 0x06, []) := by decide
theorem test_decode_lxi : decodeStream [0b00_01_0001#8, 0x78#8, 0x56#8] = .ok (.lxi .de 0x78 0x56, []) := by decide
theorem test_decode_lxiSp : decodeStream [0b00_11_0001#8, 0xFE#8, 0xFF#8] = .ok (.lxiSp 0xFE 0xFF, []) := by decide
theorem test_decode_lda : decodeStream [0b00111010#8, 0x00#8, 0x80#8] = .ok (.lda 0x00 0x80, []) := by decide
theorem test_decode_sta : decodeStream [0b00110010#8, 0x34#8, 0x12#8] = .ok (.sta 0x34 0x12, []) := by decide
theorem test_decode_unrec : decodeStream [0b11000011#8, 0x10#8] = .ok (.unrec 0xC3, [0x10#8]) := by decide
theorem test_decode_of_short_streams : decodeStream [] = .error .noOpcode ∧
    decodeStream [0x31#8, 0xFE#8] = .error .missingOperand ∧ decodeStream [0x3E#8] = .error .missingOperand := by decide

/-- The number of opcode bytes whose shape a predicate takes. -/
def shapeCount (p : Shape → Bool) : Nat := (List.range 256).countP fun n => p (decodeShape (BitVec.ofNat 8 n))

/-- The whole-map counts of 95_test_vectors.md section 2.1. -/
theorem test_whole_map_counts :
    shapeCount (fun | .mov _ _ => true | _ => false) = 63 ∧ shapeCount (fun | .mvi _ => true | _ => false) = 8 ∧
    shapeCount (fun | .lxi _ => true | _ => false) = 3 ∧ shapeCount (fun | .unrec _ => true | _ => false) = 178 ∧
    shapeCount (· == .hlt) = 1 ∧ shapeCount (· == .lxiSp) = 1 ∧ shapeCount (· == .lda) = 1 ∧
    shapeCount (· == .sta) = 1 := by
  decide +kernel

/-- The table's numbering of bits: opcode in bits 7 to 0, first operand byte in bits 15 to 8. -/
theorem test_table_word : decodeTableWord 24 0x12343A = some (.lda 0x34 0x12) ∧
    decodeTableWord 8 0x3A = some (.lda 0 0) ∧ decodeTableWord 16 0x557B3E = some (.mvi .a 0x7B) ∧
    decodeTableWord 0 0 = none := by decide

/-! ### Instructions -/

-- V8, V105
theorem test_hlt_changes_nothing :
    after (execute 0x76 0xFF 0xFF (withRegs { Regs.zero with b := 0x11, m := 0x66, a := 0x77 })) =
      some (withRegs { Regs.zero with b := 0x11, m := 0x66, a := 0x77 }) ∧
    after (execute 0x76 0 0 (indirectAt 0xAB)) = some (indirectAt 0xAB) := by decide

-- V5
theorem test_mov_to_m_is_a_slot :
    (after (execute 0x77 0 0 (withRegs { Regs.zero with h := 0x20, l := 0x10, a := 0x9A }))).map
      (fun t => (readReg t .m, memRead t 0x2010)) = some (0x9A#8, 0x00#8) := by decide

-- V103, V104: the address is that of the old H:L
theorem test_mov_h_m_indirect :
    (after (execute 0x66 0 0 (indirectAt 0x30))).map (fun t => (readReg t .h, readReg t .l)) = some (0x30#8, 0x10#8) ∧
    (after (execute 0x74 0 0 (indirectAt 0))).map (fun t => memRead t 0x2010) = some 0x20#8 := by decide

-- V27, V30
theorem test_mvi_a : (after (execute 0x3E 0xFF 0xEE State.reset)).map (fun t => readReg t .a) = some 0xFF#8 := by decide

-- V26, V102
theorem test_mvi_m :
    (after (execute 0x36 0x55 0 (withRegs { Regs.zero with h := 0x20, l := 0x10 }))).map
      (fun t => (readReg t .m, memRead t 0x2010)) = some (0x55#8, 0x00#8) ∧
    (after (execute 0x36 0x55 0 (indirectAt 0))).map (fun t => (readReg t .m, memRead t 0x2010)) =
      some (0x00#8, 0x55#8) := by decide

-- V43 (S5)
theorem test_lxiSp_byte_order : (after (execute 0x31 0xFE 0xFF State.reset)).map (fun t => t.sp) = some 0xFFFE#16 := by decide

-- V44: pair 3 is not slots 6 and 7
theorem test_lxiSp_is_not_slots_6_7 :
    (after (execute 0x31 0x34 0x12 (withRegs { Regs.zero with m := 0x66, a := 0x77 }))).map
      (fun t => (t.sp, readReg t .m, readReg t .a)) = some (0x1234#16, 0x66#8, 0x77#8) := by decide

-- V42
theorem test_lxi_hl : (after (execute 0x21 0xBC 0x9A State.reset)).map (fun t => (readReg t .h, readReg t .l)) =
    some (0x9A#8, 0xBC#8) := by decide

-- V40
theorem test_lxi_bc : (after (execute 0x01 0x34 0x12 State.reset)).map (fun t => (readReg t .b, readReg t .c)) =
    some (0x12#8, 0x34#8) := by decide

-- V63
theorem test_lda_last_cell :
    (after (execute 0x3A 0xFF 0xFF (memWrite State.reset 0xFFFF 0x5A))).map (fun t => readReg t .a) = some 0x5A#8 := by decide

-- V65
theorem test_lda_of_a_never_written_cell :
    (after (execute 0x3A 0x00 0x80 (withRegs { Regs.zero with a := 0xFF }))).map (fun t => readReg t .a) = some 0x00#8 := by
  decide

-- V62
theorem test_sta_last_cell :
    (after (execute 0x32 0xFF 0xFF (withRegs { Regs.zero with a := 0x5A }))).map
      (fun t => (memRead t 0xFFFF, memRead t 0x0000)) = some (0x5A#8, 0x00#8) := by decide

-- V64: arg1 is the low byte
theorem test_sta_byte_order :
    (after (execute 0x32 0x34 0x12 (withRegs { Regs.zero with a := 0xC3 }))).map
      (fun t => (memRead t 0x1234, memRead t 0x3412)) = some (0xC3#8, 0x00#8) := by decide

-- V82, V84
theorem test_unrec_changes_nothing :
    after (execute 0xC3 0x10 0x00 (withRegs { Regs.zero with a := 0x77 })) = some (withRegs { Regs.zero with a := 0x77 }) ∧
    after (execute 0x22 0x10 0x00 (withRegs { Regs.zero with l := 0x77 })) = some (withRegs { Regs.zero with l := 0x77 }) := by
  decide

-- V90
theorem test_zero_all :
    zeroAll { memWrite (memWrite State.reset 0 0x7B) 0xFFFF 0x5A with pc := 0x0123, sp := 0xFFFE } = State.reset := by decide

/-! ### Memory -/

/-- Storing the byte an unlisted address reads as removes the entry. -/
theorem test_memory_is_canonical :
    (memWrite (memWrite (memWrite State.reset 7 1) 3 2) 7 0).mem = [(3, 2)] ∧
    (memWrite (memWrite State.reset 7 1) 3 2).mem = [(3, 2), (7, 1)] := by decide

/-! ### Steps -/

-- The command of call-driven mode, and the tie-break of R144
theorem test_call_driven_step :
    (after (step { State.reset with commands := [.execute 0x3E 0x7B, .zeroAll] })).map
      (fun t => (readReg t .a, t.pc, t.commands)) = some (0x7B#8, 0x0000#16, [.zeroAll]) ∧
    after (step { withRegs { Regs.zero with a := 1 } with commands := [.executeAndZeroAll 0x3E 0x7B] }) =
      some State.reset := by decide

-- R128: an instruction that straddles the top of memory
theorem test_program_step_wraps :
    (after (step { programAt 0xFFFF [(0xFFFF, 0x32), (0x0000, 0x10)] with regs := { Regs.zero with a := 0x11 } })).map
      (fun t => (memRead t 0x0010, t.pc)) = some (0x11#8, 0x0002#16) := by decide

-- Program D step 6: a store to its own operand byte goes to the address fetched before
theorem test_store_to_own_operand :
    (after (step { programAt 0x0209 [(0x0209, 0x32), (0x020A, 0x0A), (0x020B, 0x02)] with
      regs := { Regs.zero with a := 0x3E } })).map (fun t => (memRead t 0x020A, t.pc)) = some (0x3E#8, 0x020C#16) := by decide

-- R125, R163, R165: the start of a run clears what was in memory, loads, and leaves pc at 0 unless the host sets it
theorem test_host_starts_a_run :
    (after (step { programAt 0x0200 [(0x0100, 0x76)] with hostActions := [.start [(0xFFFF, 0x5A)] (some 0x0101), .sequence] })).map
      (fun t => (memRead t 0x0100, memRead t 0xFFFF, t.pc, t.hostActions)) = some (0#8, 0x5A#8, 0x0101#16, [.sequence]) ∧
    (after (step { programAt 0x0200 [] with hostActions := [.start [(0, 0x76)]] })).map (fun t => (memRead t 0, t.pc)) =
      some (0x76#8, 0#16) := by decide

-- A placed table word is the very next instruction, from reset and in program mode
theorem test_placed_word_runs :
    (after (step (State.reset.withFetchWord 24 0xFFFE31))).map (fun t => t.sp) = some 0xFFFE#16 ∧
    (after (step ((programAt 0x0100 []).withFetchWord 24 0xFFFE31))).map (fun t => (t.sp, t.pc)) =
      some (0xFFFE#16, 0x0103#16) := by decide

-- R37, R38 and D10
theorem test_inspection :
    inspectReg (withRegs { Regs.zero with a := 9 }) 'A' = some 9 ∧ inspectReg State.reset 'Z' = none ∧
    inspectRange (memWrite (memWrite State.reset 0xFFFF 1) 0 2) 0xFFFF 3 = [1, 2, 0] := by decide

-- Program D's image and Table R72-T
theorem test_assembler :
    assemble [.instr (.mvi .a 0x4F), .instr (.sta 0x06 0x02), .db 0x00, .instr (.unrec 0x00), .instr (.mvi .a 0x3E),
      .instr (.sta 0x0A 0x02)] = [0x3E, 0x4F, 0x32, 0x06, 0x02, 0x00, 0x00, 0x3E, 0x3E, 0x32, 0x0A, 0x02] ∧
    lineText (.instr (.lxi .hl 0xBC 0x9A)) = "LXI HL,0x9ABC".toList ∧ lineText (.instr (.mov .b .a)) = "MOV B,A".toList := by
  decide

/-! ### Witnesses: the hypotheses of each statement can be met together, each clause at a boundary of its range -/

theorem witness_RegistersAndPointersAreDistinct : State.reset.config.mIndirect = false := rfl

theorem witness_OpcodeMap : ¬((Reg.m : Reg) = .m ∧ (Reg.a : Reg) = .m) ∧ Pair.hl ≠ .sp ∧ Pair.bc ≠ .sp := by decide

theorem witness_PatternsAreDisjoint : isMovePattern 0x76 = true ∧ isMovePattern 0x7F = true ∧
    isImmediatePattern 0x3E = true ∧ isPairPattern 0x31 = true ∧ isPairPattern 0x21 = true ∧ isLoadPattern 0x3A = true ∧
    isStorePattern 0x32 = true := by decide

theorem witness_UnusedOperandsAreIgnored :
    operandCount (decodeShape 0x7F) = 0 ∧ operandCount (decodeShape 0x3E) = 1 := by decide

theorem witness_DecodeOfEncode : Instr.wf (.unrec 0x80) = true ∧ Instr.wf (.mov .m .l) = true := by decide

theorem witness_EncodeOfDecode : decodeStream [0x21#8, 0xBC#8, 0x9A#8, 0x76#8] = .ok (.lxi .hl 0xBC 0x9A, [0x76#8]) := by
  decide

theorem witness_OperandByteOrder : getRpIndices .hl = .ok (.h, .l) := rfl

theorem witness_MovCopiesOneRegister :
    ¬((Reg.m : Reg) = .m ∧ (Reg.l : Reg) = .m) ∧ State.reset.config.mIndirect = false := by decide

theorem witness_MviLoadsOneRegister : State.reset.config.mIndirect = false := rfl

theorem witness_LxiLoadsBothRegistersOfThePair : Pair.hl ≠ .sp ∧ Pair.bc ≠ .sp := by decide

theorem witness_StoreLoadRoundTrip :
    execute 0x32 0x00 0x30 (withRegs { Regs.zero with a := 1 }) =
      .next (memWrite (withRegs { Regs.zero with a := 1 }) 0x3000 1) ∧
    NoStoreTo (directAddress 0x00 0x30) [(0x3E, 0x02, 0x00), (0x32, 0x01, 0x30)]
      (memWrite (withRegs { Regs.zero with a := 1 }) 0x3000 1) := by
  refine ⟨by rfl, by decide, fun t h => ?_⟩
  cases h
  exact ⟨by decide, fun _ _ => trivial⟩

theorem witness_UnrecognisedOpcodeChangesNothing : isMovePattern 0xFF = false ∧ isImmediatePattern 0xFF = false ∧
    isPairPattern 0xFF = false ∧ isLoadPattern 0xFF = false ∧ isStorePattern 0xFF = false := by decide

theorem witness_MovFromMemoryUnderVariant : Reg.h ≠ .m ∧ (indirectAt 0xAB).config.mIndirect = true := by decide

theorem witness_MovToMemoryUnderVariant : Reg.l ≠ .m ∧ (indirectAt 0xAB).config.mIndirect = true := by decide

theorem witness_MviToMemoryUnderVariant : (indirectAt 0xAB).config.mIndirect = true := by decide

theorem witness_OtherIndicesAreNotRedirected : Reg.l ≠ .m ∧ Reg.a ≠ .m := by decide

theorem witness_SlotSixIsUnusedUnderVariant :
    (Instr.wf (.mov .h .m) = true ∧ (indirectAt 0x30).config.mIndirect = true ∧
      ∃ t, exec (.mov .h .m) (indirectAt 0x30) = .next t) ∧
    (SlotSixZero { indirectAt 0 with commands := [.execute 0x36 0x99] } ∧
      ∃ t, step { indirectAt 0 with commands := [.execute 0x36 0x99] } = .next t) ∧
    SlotSixZero (indirectAt 0) :=
  ⟨⟨rfl, rfl, _, rfl⟩, ⟨fun _ => rfl, _, rfl⟩, fun _ => rfl⟩

theorem witness_AccessMatrix :
    Instr.wf (.lda 0xFF 0xFF) = true ∧
    ((setSp State.reset 7).config = State.reset.config ∧
      (∀ r ∈ (accessOf (.lda 0xFF 0xFF) State.reset).readsRegs, readReg (setSp State.reset 7) r = readReg State.reset r) ∧
      ∀ a ∈ (accessOf (.lda 0xFF 0xFF) State.reset).readsCells, memRead (setSp State.reset 7) a = memRead State.reset a) ∧
    (accessOf (.lda 0xFF 0xFF) State.reset).writesSp = false ∧ (accessOf (.lxiSp 0 0) State.reset).writesSp = true :=
  ⟨rfl, ⟨rfl, fun _ _ => rfl, fun _ _ => rfl⟩, rfl, rfl⟩

theorem witness_PcIgnoredByExecuteZeroedByResetAdvancedBySequencer :
    CallDrivenPcZero { State.reset with commands := [.execute 0x47] } ∧
      ∃ t, step { State.reset with commands := [.execute 0x47] } = .next t :=
  ⟨fun _ => rfl, _, rfl⟩

theorem witness_StackPointerIsOnlyWritten : (0x32 : Byte) ≠ 0x31 := by decide

theorem witness_NothingEndsARun : memRead (programAt 0xFFFF [(0xFFFF, 0x76)]) 0xFFFF = 0x76 ∧
    isUnrecByte (memRead (programAt 0xFFFF [(0xFFFF, 0xFF)]) 0xFFFF) = true := by decide

theorem witness_CallDrivenStepRunsTheTriple : State.reset.config.driverMode = .callDriven := rfl

theorem witness_ProgramStepRunsTheFetchedInstruction : (programAt 0xFFFF []).config.driverMode = .program ∧
    (programAt 0xFFFF []).hostActions = [] := by decide

theorem witness_ProgramStepPerformsHostAction : (programAt 0 []).config.driverMode = .program := by decide

theorem witness_HostWritesOnlyAtTheStartOfARun :
    ((programAt 0xFFFF []).config.driverMode = .program ∧
      (([(0x0000, 0x7B), (0xFFFF, 0x5A)] : List (Word × Byte)).map Prod.fst).Nodup) ∧
    ((programAt 0xFFFF []).config = (programAt 0 [(0, 1)]).config ∧
      (programAt 0xFFFF []).commands = (programAt 0 [(0, 1)]).commands ∧
      (programAt 0xFFFF []).hostActions = (programAt 0 [(0, 1)]).hostActions) ∧
    State.reset.config.driverMode = .callDriven := by decide

theorem witness_LoadWritesTheImage : (([(0x0000, 0x7B), (0xFFFF, 0x5A)] : List (Word × Byte)).map Prod.fst).Nodup := by decide

theorem witness_SequencerAdvancesPc : (programAt 0xFFFF [(0xFFFF, 0x3A)]).config.driverMode = .program ∧
    (programAt 0xFFFF [(0xFFFF, 0x3A)]).hostActions = [] := by decide

theorem witness_InstructionsWrapAroundTheTop :
    (operandCount (decodeShape (memRead (programAt 0xFFFE [(0xFFFE, 0x31)]) 0xFFFE)) = 2 ∧
      (programAt 0xFFFE [(0xFFFE, 0x31)]).pc = 0xFFFE) ∧
    (operandCount (decodeShape (memRead (programAt 0xFFFF [(0xFFFF, 0x3E)]) 0xFFFF)) = 1 ∧
      (programAt 0xFFFF [(0xFFFF, 0x3E)]).pc = 0xFFFF) ∧
    (operandCount (decodeShape (memRead (programAt 0xFFFF [(0xFFFF, 0x32), (0, 0x10)]) 0xFFFF)) = 2 ∧
      memRead (programAt 0xFFFF [(0xFFFF, 0x32), (0, 0x10)]) 0xFFFF = 0x32 ∧
      memRead (programAt 0xFFFF [(0xFFFF, 0x32), (0, 0x10)]) 0 = 0x10 ∧
      memRead (programAt 0xFFFF [(0xFFFF, 0x32), (0, 0x10)]) 1 = 0x00 ∧
      (programAt 0xFFFF [(0xFFFF, 0x32), (0, 0x10)]).pc = 0xFFFF ∧
      readReg { programAt 0xFFFF [(0xFFFF, 0x32), (0, 0x10)] with regs := { Regs.zero with a := 0x11 } } .a = 0x11) := by
  decide

theorem witness_BytesAfterUnrecognisedAreOpcodes :
    isUnrecByte (memRead (programAt 0xFFFF [(0xFFFF, 0xC3)]) (programAt 0xFFFF [(0xFFFF, 0xC3)]).pc) = true := by decide

theorem witness_ZeroMemoryRunsForEver : (programAt 0xFFFF []).config.driverMode = .program ∧
    (programAt 0xFFFF []).hostActions = [] ∧ ∀ a, memRead (programAt 0xFFFF []) a = 0 :=
  ⟨rfl, rfl, fun _ => rfl⟩

/-- The image stores to the byte right after the instruction, so that the last clause's hypothesis holds too. -/
theorem witness_StoreIsSeenByTheNextFetch :
    (programAt 0xFFFC [(0xFFFC, 0x32), (0xFFFD, 0xFF), (0xFFFE, 0xFF)]).config.driverMode = .program ∧
    (programAt 0xFFFC [(0xFFFC, 0x32), (0xFFFD, 0xFF), (0xFFFE, 0xFF)]).hostActions = [] ∧
    memRead (programAt 0xFFFC [(0xFFFC, 0x32), (0xFFFD, 0xFF), (0xFFFE, 0xFF)]) 0xFFFC = 0x32 ∧
    directAddress (memRead (programAt 0xFFFC [(0xFFFC, 0x32), (0xFFFD, 0xFF), (0xFFFE, 0xFF)]) 0xFFFD)
      (memRead (programAt 0xFFFC [(0xFFFC, 0x32), (0xFFFD, 0xFF), (0xFFFE, 0xFF)]) 0xFFFE) = 0xFFFC + 3 := by decide

theorem witness_OnlyStaAndResetChangeMemory :
    ∃ t, step { withRegs { Regs.zero with a := 7 } with commands := [.execute 0x32 0xFF 0xFF] } = .next t ∧
      memRead t 0xFFFF ≠ memRead (withRegs { Regs.zero with a := 7 }) 0xFFFF :=
  ⟨_, rfl, by decide⟩

theorem witness_ConfigurationIsFixed : ∃ t, step { State.reset with commands := [.execute 0x76] } = .next t := ⟨_, rfl⟩

theorem witness_InstructionsLeaveConfigurationAndInput : ∃ t, exec (.sta 0xFF 0xFF) State.reset = .next t := ⟨_, rfl⟩

theorem witness_StepKeepsCanonicalMemory : CanonicalMemory (programAt 0xFFFF [(0xFFFF, 0x32), (0, 0xFF)]) ∧
    ∃ t, step (programAt 0xFFFF [(0xFFFF, 0x32), (0, 0xFF)]) = .next t :=
  ⟨show Memory.wf _ by decide, _, rfl⟩

theorem witness_PlacedInstructionRunsNext : State.reset.config.driverMode = .callDriven ∧
    (programAt 0xFFFF []).config.driverMode = .program := by decide

theorem witness_RegisterNameTable : searchName registerNames 'A' = some .a ∧ ('B', Reg.b) ∈ registerNames := by decide

theorem witness_AssembledProgramsDecodeLineByLine : Instr.wf (.lxi .hl 0xFF 0xFF) = true := by decide

theorem witness_InspectionShowsTheState : ('A', Reg.a) ∈ registerNames ∧ (∀ r, ('Z', r) ∉ registerNames) ∧ 2 < 3 :=
  ⟨by decide, fun r => by cases r <;> decide, by decide⟩

end Sys2Proof.Tests
end

section
/-! PROOF. The reasoning rules of one memory write (R13), and the obligation of 00_scope.md that they settle. -/

namespace Sys2Proof.Machine

/-! ### The rules of `memWrite` -/

@[simp] theorem memRead_memWrite_same (s : State) (a : Word) (v : Byte) : memRead (memWrite s a v) a = v := by
  rw [memRead_memWrite, if_pos rfl]

theorem memRead_memWrite_of_ne (s : State) {a b : Word} (v : Byte) (h : b ≠ a) :
    memRead (memWrite s a v) b = memRead s b := by
  rw [memRead_memWrite, if_neg h]

theorem sameMemExcept_memWrite (s : State) (a : Word) (v : Byte) : SameMemExcept [a] s (memWrite s a v) :=
  fun _ hb => memRead_memWrite_of_ne s v (List.ne_of_not_mem_cons hb)

theorem sameRegsExcept_memWrite (s : State) (a : Word) (v : Byte) : SameRegsExcept [] s (memWrite s a v) :=
  fun r _ => readReg_memWrite s a v r

theorem samePointers_memWrite (s : State) (a : Word) (v : Byte) : SamePointers s (memWrite s a v) :=
  ⟨memWrite_pc s a v, memWrite_sp s a v⟩

/-! ### The obligation -/

/-- Settles O1, from the read-back rule and the three frame rules of `memWrite`. -/
theorem memoryWriteChangesOneCell : Obligations.MemoryWriteChangesOneCell := fun s a v =>
  ⟨memRead_memWrite_same s a v, sameMemExcept_memWrite s a v, sameRegsExcept_memWrite s a v,
    samePointers_memWrite s a v⟩

end Sys2Proof.Machine
end

section
/-! PROOF. What `exec` cannot see (R25, R26): an update of the state that keeps what an instruction looks at and commutes with
both of its writes commutes with the instruction. The two pointers are such updates. -/

namespace Sys2Proof.Machine

/-! ### Updates that no operand sees -/

theorem isIndirect_eq_of_config {s u : State} (h : u.config = s.config) (r : Reg) : isIndirect u r = isIndirect s r := by
  simp only [isIndirect, h]

/-- The update keeps every register, every cell and the configuration, and commutes with a write of either. -/
structure UnseenUpdate (g : State → State) : Prop where
  reads_reg : ∀ s r, readReg (g s) r = readReg s r
  reads_mem : ∀ s a, memRead (g s) a = memRead s a
  keeps_config : ∀ s, (g s).config = s.config
  writes_reg : ∀ s r v, writeReg (g s) r v = g (writeReg s r v)
  writes_mem : ∀ s a v, memWrite (g s) a v = g (memWrite s a v)

theorem unseenUpdate_setPc (w : Word) : UnseenUpdate (setPc · w) :=
  ⟨readReg_setPc (v := w), fun s => memRead_setPc s w, fun s => setPc_config s w, fun _ _ _ => rfl, fun _ _ _ => rfl⟩

theorem unseenUpdate_setSp (w : Word) : UnseenUpdate (setSp · w) :=
  ⟨readReg_setSp (v := w), fun s => memRead_setSp s w, fun s => setSp_config s w, fun _ _ _ => rfl, fun _ _ _ => rfl⟩

section

variable {g : State → State} (hg : UnseenUpdate g)
include hg

theorem UnseenUpdate.isIndirect_eq (s : State) (r : Reg) : isIndirect (g s) r = isIndirect s r :=
  isIndirect_eq_of_config (hg.keeps_config s) r

theorem UnseenUpdate.hlAddress_eq (s : State) : hlAddress (g s) = hlAddress s := by
  simp only [hlAddress, hg.reads_reg]

theorem UnseenUpdate.readOperand_eq (s : State) (r : Reg) : readOperand (g s) r = readOperand s r := by
  simp only [readOperand, hg.isIndirect_eq, hg.hlAddress_eq, hg.reads_reg, hg.reads_mem]

theorem UnseenUpdate.writeOperand_eq (s : State) (r : Reg) (v : Byte) :
    writeOperand (g s) r v = g (writeOperand s r v) := by
  simp only [writeOperand, hg.isIndirect_eq, hg.hlAddress_eq, hg.writes_reg, hg.writes_mem, apply_ite g]

/-- An instruction commutes with an unseen update; `LXI SP` does if the write of the stack pointer does. -/
theorem UnseenUpdate.exec_next {i : Instr} {s t : State} (h : exec i s = .next t)
    (hsp : ∀ arg1 arg2, i = .lxiSp arg1 arg2 → ∀ v, setSp (g s) v = g (setSp s v)) : exec i (g s) = .next (g t) := by
  cases i with
  | hlt => cases h; rfl
  | unrec op => cases h; rfl
  | mov dst src => cases h; rw [exec_mov, hg.readOperand_eq, hg.writeOperand_eq]
  | mvi r arg1 => cases h; rw [exec_mvi, hg.writeOperand_eq]
  | lxiSp arg1 arg2 => cases h; rw [exec_lxiSp, hsp arg1 arg2 rfl]
  | lda arg1 arg2 => cases h; rw [exec_lda, hg.reads_mem, hg.writes_reg]
  | sta arg1 arg2 => cases h; rw [exec_sta, hg.reads_reg, hg.writes_mem]
  | lxi rp arg1 arg2 =>
    cases hrp : getRpIndices rp with
    | ok p => rw [exec_lxi hrp] at h ⊢; cases h; rw [hg.writes_reg, hg.writes_reg]
    | error f => simp [exec, execLxi, hrp] at h

end

/-! ### The two pointers -/

theorem exec_setPc {i : Instr} {s t : State} (h : exec i s = .next t) (w : Word) :
    exec i (setPc s w) = .next (setPc t w) :=
  (unseenUpdate_setPc w).exec_next h fun _ _ _ _ => rfl

theorem exec_setSp {i : Instr} {s t : State} (hi : ∀ arg1 arg2, i ≠ .lxiSp arg1 arg2) (h : exec i s = .next t) (w : Word) :
    exec i (setSp s w) = .next (setSp t w) :=
  (unseenUpdate_setSp w).exec_next h fun arg1 arg2 e => absurd e (hi arg1 arg2)

/-- Setting the stack pointer to the value it holds changes nothing before the instruction, so nothing after it. -/
theorem exec_next_sp {i : Instr} {s t : State} (hi : ∀ arg1 arg2, i ≠ .lxiSp arg1 arg2) (h : exec i s = .next t) :
    t.sp = s.sp := by
  have hset : exec i s = .next (setSp t s.sp) := exec_setSp hi h s.sp
  have ht : t = setSp t s.sp := Host.Outcome.next.inj (h.symm.trans hset)
  rw [ht, setSp_sp]

/-! ### `execute` on an opcode byte -/

theorem execute_next (op arg1 arg2 : Byte) (s : State) : ∃ t, execute op arg1 arg2 s = .next t :=
  exec_of_wf (decode_wf op arg1 arg2) s

/-- Only the byte 0x31 decodes to `LXI SP`: the encoder gives the byte back. -/
theorem decode_ne_lxiSp {op : Byte} (h : op ≠ 0x31#8) (arg1 arg2 b1 b2 : Byte) :
    decode op arg1 arg2 ≠ .lxiSp b1 b2 := fun e =>
  h ((opcodeOf_decode op arg1 arg2).symm.trans (congrArg opcodeOf e))

theorem execute_lxiSp (arg1 arg2 : Byte) (s : State) :
    execute 0x31#8 arg1 arg2 s = .next (setSp s (immediate16 arg1 arg2)) := rfl

/-- Every 16-bit value is the immediate of its own two bytes. -/
theorem immediate16_bytes (w : Word) : immediate16 (w.extractLsb' 0 8) (w.extractLsb' 8 8) = w := by
  apply BitVec.eq_of_toNat_eq
  rw [immediate16, bytePair_toNat, BitVec.extractLsb'_toNat, BitVec.extractLsb'_toNat, Nat.shiftRight_eq_div_pow,
    Nat.shiftRight_eq_div_pow]
  omega

end Sys2Proof.Machine
end

section
/-! PROOF. The access matrix (R35, R137): an instruction is one fixed write, the same in every state that agrees on what its row
reads. -/

namespace Sys2Proof.Machine

/-! ### Fixed writes -/

/-- The update writes at most the listed registers and cells, and the stack pointer if `sp`, and what it writes there is the
same in every state. -/
structure FixedWrite (regs : List Reg) (cells : List Word) (sp : Bool) (f : State → State) : Prop where
  other_regs : ∀ s, SameRegsExcept regs s (f s)
  other_cells : ∀ s, SameMemExcept cells s (f s)
  same_pc : ∀ s, (f s).pc = s.pc
  same_sp : sp = false → ∀ s, (f s).sp = s.sp
  fixed_regs : ∀ s u, ∀ r ∈ regs, readReg (f u) r = readReg (f s) r
  fixed_cells : ∀ s u, ∀ a ∈ cells, memRead (f u) a = memRead (f s) a
  fixed_sp : sp = true → ∀ s u, (f u).sp = (f s).sp

theorem fixedWrite_nothing : FixedWrite [] [] false (fun s => s) where
  other_regs _ _ _ := rfl
  other_cells _ _ _ := rfl
  same_pc _ := rfl
  same_sp _ _ := rfl
  fixed_regs := by simp
  fixed_cells := by simp
  fixed_sp := by simp

theorem fixedWrite_memWrite (a : Word) (v : Byte) : FixedWrite [] [a] false (memWrite · a v) where
  other_regs s := sameRegsExcept_memWrite s a v
  other_cells s := sameMemExcept_memWrite s a v
  same_pc s := memWrite_pc s a v
  same_sp _ s := memWrite_sp s a v
  fixed_regs := by simp
  fixed_cells s u b hb := by
    obtain rfl := List.mem_singleton.mp hb
    rw [memRead_memWrite_same, memRead_memWrite_same]
  fixed_sp := by simp

theorem fixedWrite_setSp (w : Word) : FixedWrite [] [] true (setSp · w) where
  other_regs s r _ := readReg_setSp s w r
  other_cells s a _ := memRead_setSp s w a
  same_pc s := setSp_pc s w
  same_sp := by simp
  fixed_regs := by simp
  fixed_cells := by simp
  fixed_sp _ _ _ := rfl

/-- A register write after a fixed write: the register joins the list. -/
theorem FixedWrite.then_writeReg {regs : List Reg} {cells : List Word} {sp : Bool} {f : State → State}
    (hf : FixedWrite regs cells sp f) (r : Reg) (v : Byte) :
    FixedWrite (r :: regs) cells sp (fun s => writeReg (f s) r v) where
  other_regs s r' hr' := by
    obtain ⟨hne, hregs⟩ := not_or.mp (mt List.mem_cons.mpr hr')
    rw [readReg_writeReg, if_neg hne, hf.other_regs s r' hregs]
  other_cells := hf.other_cells
  same_pc := hf.same_pc
  same_sp := hf.same_sp
  fixed_regs s u r' hr' := by
    rw [readReg_writeReg, readReg_writeReg]
    split
    · rfl
    · next hne => exact hf.fixed_regs s u r' ((List.mem_cons.mp hr').resolve_left hne)
  fixed_cells := hf.fixed_cells
  fixed_sp := hf.fixed_sp

/-! ### Rows -/

/-- `u` has the configuration of `s` and agrees with it on what the row reads. -/
structure AgreesOnReads (row : Access) (s u : State) : Prop where
  config : u.config = s.config
  regs : ∀ r ∈ row.readsRegs, readReg u r = readReg s r
  cells : ∀ a ∈ row.readsCells, memRead u a = memRead s a

theorem AgreesOnReads.refl (row : Access) (s : State) : AgreesOnReads row s s := ⟨rfl, fun _ _ => rfl, fun _ _ => rfl⟩

/-- In every state that agrees with `s` on what the row reads, the instruction is one and the same fixed write of what the row
writes. -/
def FollowsRow (row : Access) (i : Instr) (s : State) : Prop :=
  ∃ f, FixedWrite row.writesRegs row.writesCells row.writesSp f ∧ ∀ u, AgreesOnReads row s u → exec i u = .next (f u)

/-- A row that reads H and L fixes the register-indirect address. -/
theorem AgreesOnReads.hlAddress_eq {row : Access} {s u : State} (h : AgreesOnReads row s u) (hh : .h ∈ row.readsRegs)
    (hl : .l ∈ row.readsRegs) : hlAddress u = hlAddress s := by
  rw [hlAddress, hlAddress, h.regs _ hh, h.regs _ hl]

/-- Agreeing states redirect the same operands. -/
theorem AgreesOnReads.isIndirect_of {row : Access} {s u : State} (h : AgreesOnReads row s u) {r : Reg} {b : Bool}
    (hr : isIndirect s r = b) : isIndirect u r = b :=
  (isIndirect_eq_of_config h.config r).trans hr

/-- What follows its row does what the access matrix says of the row. -/
theorem FollowsRow.access {row : Access} {i : Instr} {s : State} (h : FollowsRow row i s) :
    ∃ t, exec i s = .next t ∧
      (SameRegsExcept row.writesRegs s t ∧ SameMemExcept row.writesCells s t ∧ t.pc = s.pc ∧
        (row.writesSp = false → t.sp = s.sp)) ∧
      ∀ u, AgreesOnReads row s u →
        ∃ v, exec i u = .next v ∧ (∀ r ∈ row.writesRegs, readReg v r = readReg t r) ∧
          (∀ a ∈ row.writesCells, memRead v a = memRead t a) ∧ (row.writesSp = true → v.sp = t.sp) := by
  obtain ⟨f, hf, hexec⟩ := h
  refine ⟨f s, hexec s (.refl row s),
    ⟨hf.other_regs s, hf.other_cells s, hf.same_pc s, fun hsp => hf.same_sp hsp s⟩, fun u hu => ⟨f u, hexec u hu, ?_⟩⟩
  exact ⟨hf.fixed_regs s u, hf.fixed_cells s u, fun hsp => hf.fixed_sp hsp s u⟩

/-! ### The row of each instruction -/

/-- `MOV M,M` does not exist, so the destination is a register where the source is redirected. -/
theorem isIndirect_dst_of_src {dst src : Reg} (hwf : Instr.wf (.mov dst src) = true) {s : State}
    (hsrc : isIndirect s src = true) : isIndirect s dst = false := by
  obtain ⟨-, rfl⟩ := (isIndirect_iff s src).mp hsrc
  refine Bool.eq_false_iff.mpr fun hdst => ?_
  obtain ⟨-, rfl⟩ := (isIndirect_iff s dst).mp hdst
  cases hwf

theorem followsRow_mov {dst src : Reg} (hwf : Instr.wf (.mov dst src) = true) (s : State) :
    FollowsRow (accessOf (.mov dst src) s) (.mov dst src) s := by
  cases hsrc : isIndirect s src with
  | true =>
    have hdst := isIndirect_dst_of_src hwf hsrc
    rw [accessOf, if_pos hsrc]
    refine ⟨_, fixedWrite_nothing.then_writeReg dst (memRead s (hlAddress s)), fun u hu => ?_⟩
    rw [exec_mov, readOperand_indirect (hu.isIndirect_of hsrc), writeOperand_direct (hu.isIndirect_of hdst),
      hu.hlAddress_eq (by simp) (by simp), hu.cells (hlAddress s) (by simp)]
  | false =>
    cases hdst : isIndirect s dst with
    | true =>
      rw [accessOf, if_neg (by simp [hsrc]), if_pos hdst]
      refine ⟨_, fixedWrite_memWrite (hlAddress s) (readReg s src), fun u hu => ?_⟩
      rw [exec_mov, readOperand_direct (hu.isIndirect_of hsrc), writeOperand_indirect (hu.isIndirect_of hdst),
        hu.hlAddress_eq (by simp) (by simp), hu.regs src (by simp)]
    | false =>
      rw [accessOf, if_neg (by simp [hsrc]), if_neg (by simp [hdst])]
      refine ⟨_, fixedWrite_nothing.then_writeReg dst (readReg s src), fun u hu => ?_⟩
      rw [exec_mov, readOperand_direct (hu.isIndirect_of hsrc), writeOperand_direct (hu.isIndirect_of hdst),
        hu.regs src (by simp)]

theorem followsRow_mvi (r : Reg) (arg1 : Byte) (s : State) : FollowsRow (accessOf (.mvi r arg1) s) (.mvi r arg1) s := by
  cases hr : isIndirect s r with
  | true =>
    rw [accessOf, if_pos hr]
    refine ⟨_, fixedWrite_memWrite (hlAddress s) arg1, fun u hu => ?_⟩
    rw [exec_mvi, writeOperand_indirect (hu.isIndirect_of hr), hu.hlAddress_eq (by simp) (by simp)]
  | false =>
    rw [accessOf, if_neg (by simp [hr])]
    refine ⟨_, fixedWrite_nothing.then_writeReg r arg1, fun u hu => ?_⟩
    rw [exec_mvi, writeOperand_direct (hu.isIndirect_of hr)]

theorem followsRow_lxi {rp : Pair} (arg1 arg2 : Byte) (hwf : Instr.wf (.lxi rp arg1 arg2) = true) (s : State) :
    FollowsRow (accessOf (.lxi rp arg1 arg2) s) (.lxi rp arg1 arg2) s := by
  have hpair : ∀ high low : Reg,
      FixedWrite [high, low] [] false (fun u => writeReg (writeReg u low arg1) high arg2) := fun high low =>
    (fixedWrite_nothing.then_writeReg low arg1).then_writeReg high arg2
  cases rp with
  | bc => exact ⟨_, hpair .b .c, fun u _ => exec_lxi rfl arg1 arg2 u⟩
  | de => exact ⟨_, hpair .d .e, fun u _ => exec_lxi rfl arg1 arg2 u⟩
  | hl => exact ⟨_, hpair .h .l, fun u _ => exec_lxi rfl arg1 arg2 u⟩
  | sp => cases hwf

theorem followsRow_lda (arg1 arg2 : Byte) (s : State) :
    FollowsRow (accessOf (.lda arg1 arg2) s) (.lda arg1 arg2) s := by
  refine ⟨_, fixedWrite_nothing.then_writeReg .a (memRead s (directAddress arg1 arg2)), fun u hu => ?_⟩
  rw [exec_lda, hu.cells (directAddress arg1 arg2) (List.mem_singleton.mpr rfl)]

theorem followsRow_sta (arg1 arg2 : Byte) (s : State) :
    FollowsRow (accessOf (.sta arg1 arg2) s) (.sta arg1 arg2) s := by
  refine ⟨_, fixedWrite_memWrite (directAddress arg1 arg2) (readReg s .a), fun u hu => ?_⟩
  rw [exec_sta, hu.regs .a (List.mem_singleton.mpr rfl)]

/-- Every instruction of the hardware follows its row of Table R35-T, with the rows R137 adds. -/
theorem followsRow_accessOf {i : Instr} (hwf : i.wf = true) (s : State) : FollowsRow (accessOf i s) i s := by
  cases i with
  | hlt => exact ⟨_, fixedWrite_nothing, fun u _ => exec_hlt u⟩
  | unrec op => exact ⟨_, fixedWrite_nothing, fun u _ => exec_unrec op u⟩
  | lxiSp arg1 arg2 => exact ⟨_, fixedWrite_setSp (immediate16 arg1 arg2), fun u _ => exec_lxiSp arg1 arg2 u⟩
  | mov dst src => exact followsRow_mov hwf s
  | mvi r arg1 => exact followsRow_mvi r arg1 s
  | lxi rp arg1 arg2 => exact followsRow_lxi arg1 arg2 hwf s
  | lda arg1 arg2 => exact followsRow_lda arg1 arg2 s
  | sta arg1 arg2 => exact followsRow_sta arg1 arg2 s

/-! ### The obligation -/

/-- Settles O28, case by case over the instructions: each is a fixed write of what its row names. -/
theorem accessMatrix : Obligations.AccessMatrix := by
  intro i s hwf
  obtain ⟨t, ht, hframe, hdepends⟩ := (followsRow_accessOf hwf s).access
  exact ⟨t, ht, hframe, fun u hconfig hregs hcells => hdepends u ⟨hconfig, hregs, hcells⟩⟩

end Sys2Proof.Machine
end

section
/-! PROOF. The two pointers (R25, R26): who writes them, and that no instruction reads them. -/

namespace Sys2Proof.Machine

/-! ### What a sequencer step, a command and a step do to the program counter -/

theorem sequencerStep_next (s : State) : ∃ t, sequencerStep s = .next t ∧ t.pc = nextPc s ∧ t.config = s.config := by
  obtain ⟨t, ht⟩ := execute_next (fetchOpcode s) (fetchArg1 s) (fetchArg2 s) (setPc s (nextPc s))
  obtain ⟨hpc, hconfig, -⟩ := exec_next_keeps ht
  exact ⟨t, ht, hpc, hconfig⟩

theorem nextPc_toNat (s : State) : (nextPc s).toNat = (s.pc.toNat + 1 + fetchCount s) % 65536 := by
  simp [nextPc, BitVec.toNat_add, Nat.add_assoc]

/-- A command answers a next state, which keeps the program counter or has it at 0. -/
theorem performCommand_next (c : Command) (s : State) :
    ∃ t, performCommand c s = .next t ∧ (t.pc = s.pc ∨ t.pc = 0) := by
  cases c with
  | execute op arg1 arg2 =>
    obtain ⟨t, ht⟩ := execute_next op arg1 arg2 s
    exact ⟨t, ht, .inl (exec_next_keeps ht).1⟩
  | zeroAll => exact ⟨_, rfl, .inr rfl⟩
  | executeAndZeroAll op arg1 arg2 => exact ⟨_, rfl, .inr rfl⟩

theorem callStep_next (s : State) : ∃ t, callStep s = .next t ∧ (t.pc = s.pc ∨ t.pc = 0) := by
  unfold callStep
  split
  · exact ⟨s, rfl, .inl rfl⟩
  · next c rest _ => exact performCommand_next c { s with commands := rest }

theorem step_callDriven {s : State} (h : s.config.driverMode = .callDriven) : step s = callStep s := by
  rw [step, h]

theorem step_next_config {s t : State} (h : step s = .next t) : t.config = s.config := by
  rcases step_cases s with e | ⟨_, _, _, _, e⟩ | ⟨_, e⟩ | ⟨_, e⟩ | ⟨image, address, _, e⟩ | ⟨acts, e⟩ <;> rw [e] at h
  · cases h; rfl
  · obtain ⟨-, hconfig, -⟩ := exec_next_keeps h
    exact hconfig
  · cases h; rfl
  · cases h; rfl
  · cases h; exact startRun_config image address _
  · obtain ⟨u, hu, -, hconfig⟩ := sequencerStep_next { s with hostActions := acts }
    rw [hu] at h
    cases h
    exact hconfig

theorem step_keeps_callDrivenPcZero {s t : State} (hs : CallDrivenPcZero s) (h : step s = .next t) :
    CallDrivenPcZero t := by
  intro hmode
  rw [step_next_config h] at hmode
  obtain ⟨u, hu, hpc⟩ := callStep_next s
  rw [step_callDriven hmode, hu] at h
  cases h
  exact hpc.elim (·.trans (hs hmode)) id

/-! ### The obligations -/

/-- Settles O30: `execute` commutes with the update `setPc`, and every step keeps `CallDrivenPcZero`. -/
theorem pcIgnoredByExecuteZeroedByResetAdvancedBySequencer :
    Obligations.PcIgnoredByExecuteZeroedByResetAdvancedBySequencer := by
  refine ⟨fun op arg1 arg2 s w => ?_, zeroAll_pc, fun s t => step_keeps_callDrivenPcZero, fun s => ?_⟩
  · obtain ⟨t, ht⟩ := execute_next op arg1 arg2 s
    exact ⟨t, ht, (exec_next_keeps ht).1, exec_setPc ht w⟩
  · obtain ⟨t, ht, hpc, -⟩ := sequencerStep_next s
    exact ⟨t, ht, hpc ▸ nextPc_toNat s⟩

/-- Settles O31: every instruction but `LXI SP` commutes with the update `setSp`, which also says that it keeps `sp`. -/
theorem stackPointerIsOnlyWritten : Obligations.StackPointerIsOnlyWritten := by
  refine ⟨fun w s => ?_, fun op arg1 arg2 s w hop => ?_, fun arg1 arg2 s w => ?_, zeroAll_sp⟩
  · exact ⟨w.extractLsb' 0 8, w.extractLsb' 8 8, by rw [execute_lxiSp, immediate16_bytes]⟩
  · obtain ⟨t, ht⟩ := execute_next op arg1 arg2 s
    have hne := decode_ne_lxiSp hop arg1 arg2
    exact ⟨t, ht, exec_next_sp hne ht, exec_setSp hne ht w⟩
  · rw [execute_lxiSp, execute_lxiSp]; rfl

end Sys2Proof.Machine
end

section
/-! PROOF. The register-name table (R38): the linear search of a table whose names are all different answers its rows. -/

namespace Sys2Proof.Machine

theorem searchName_eq_some_iff {table : List (Char × Reg)} (hnodup : (table.map Prod.fst).Nodup) (name : Char) (r : Reg) :
    searchName table name = some r ↔ (name, r) ∈ table := by
  induction table with
  | nil => simp [searchName]
  | cons row rest ih =>
    obtain ⟨hfirst, hrest⟩ := List.nodup_cons.mp hnodup
    rw [searchName, List.mem_cons]
    by_cases hname : row.1 = name
    · have habsent : (name, r) ∉ rest := fun hmem => hfirst (hname ▸ List.mem_map_of_mem hmem)
      rw [if_pos hname, or_iff_left habsent, Prod.ext_iff, Option.some_inj, eq_comm (a := row.2)]
      exact (and_iff_right hname.symm).symm
    · rw [if_neg hname, ih hrest, or_iff_right fun e => hname (congrArg Prod.fst e).symm]

/-- Settles O49: the table as it is written out, and the search of it, its eight names being different. -/
theorem registerNameTable : Obligations.RegisterNameTable :=
  ⟨by decide, searchName_eq_some_iff (by decide)⟩

end Sys2Proof.Machine
end

section
/-! PROOF. The byte order of 16-bit operands (R44): `arg1` is the low byte and `arg2` the high byte. -/

namespace Sys2Proof.Machine

@[simp] theorem immediate16_toNat (arg1 arg2 : Byte) :
    (immediate16 arg1 arg2).toNat = 256 * arg2.toNat + arg1.toNat :=
  bytePair_toNat arg2 arg1

@[simp] theorem directAddress_toNat (arg1 arg2 : Byte) :
    (directAddress arg1 arg2).toNat = 256 * arg2.toNat + arg1.toNat :=
  bytePair_toNat arg2 arg1

@[simp] theorem readReg_writeReg_same (s : State) (r : Reg) (v : Byte) : readReg (writeReg s r v) r = v := by
  rw [readReg_writeReg, if_pos rfl]

theorem readReg_writeReg_of_ne (s : State) {r r' : Reg} (v : Byte) (h : r' ≠ r) :
    readReg (writeReg s r v) r' = readReg s r' := by
  rw [readReg_writeReg, if_neg h]

/-- The two registers of a pair are different, so the second write of `LXI` keeps the first. -/
theorem low_ne_high_of_getRpIndices {rp : Pair} {high low : Reg} (h : getRpIndices rp = .ok (high, low)) :
    low ≠ high := by
  cases rp <;> cases h <;> decide

/-- `LXI` with a pair leaves `arg2` in the high and `arg1` in the low register. -/
theorem exec_lxi_reads {rp : Pair} {high low : Reg} (h : getRpIndices rp = .ok (high, low)) (arg1 arg2 : Byte)
    (s : State) :
    ∃ t, exec (.lxi rp arg1 arg2) s = .next t ∧ readReg t high = arg2 ∧ readReg t low = arg1 := by
  refine ⟨_, exec_lxi h arg1 arg2 s, readReg_writeReg_same _ high arg2, ?_⟩
  rw [readReg_writeReg_of_ne _ _ (low_ne_high_of_getRpIndices h), readReg_writeReg_same]

/-- Settles O12: the value of the immediate and of the direct address, and the read-back of the two register writes of `LXI`. -/
theorem operandByteOrder : Obligations.OperandByteOrder := by
  intro arg1 arg2 s
  refine ⟨⟨_, exec_lxiSp arg1 arg2 s, ?_⟩, fun rp high low h => exec_lxi_reads h arg1 arg2 s,
    directAddress_toNat arg1 arg2, ⟨_, execute_lxiSp 0xFE#8 0xFF#8 s, ?_⟩⟩
  · rw [setSp_sp, immediate16_toNat]
  · rw [setSp_sp]; decide

end Sys2Proof.Machine
end

section
/-! PROOF. The encoding (R62 to R71): each mask pattern is a condition on the value of two bit groups of the byte, as R67 reads
the patterns. That gives their disjointness, and the shape each of them decides by itself. -/

namespace Sys2Proof

/-! ### Fields and their codes (R62 to R64) -/

@[simp] theorem fieldD_toNat (op : Byte) : (fieldD op).toNat = op.toNat / 8 % 8 := by
  simp [fieldD, Nat.shiftRight_eq_div_pow]

@[simp] theorem fieldS_toNat (op : Byte) : (fieldS op).toNat = op.toNat % 8 := by
  simp [fieldS]

@[simp] theorem fieldP_toNat (op : Byte) : (fieldP op).toNat = op.toNat / 16 % 4 := by
  simp [fieldP, Nat.shiftRight_eq_div_pow]

theorem regOfField_eq_m_iff (f : BitVec 3) : regOfField f = .m ↔ f.toNat = 6 := by
  revert f; decide

theorem pairOfField_eq_sp_iff (f : BitVec 2) : pairOfField f = .sp ↔ f.toNat = 3 := by
  revert f; decide

/-- Settles O5: the values of the three fields, and the decoding of the code of each register and each pair. -/
theorem fieldsAndFieldCodes : Obligations.FieldsAndFieldCodes :=
  ⟨fun op => ⟨fieldD_toNat op, fieldS_toNat op, fieldP_toNat op⟩,
    ⟨regOfField_regField .b, regOfField_regField .c, regOfField_regField .d, regOfField_regField .e,
      regOfField_regField .h, regOfField_regField .l, regOfField_regField .m, regOfField_regField .a⟩,
    ⟨pairOfField_pairField .bc, pairOfField_pairField .de, pairOfField_pairField .hl, pairOfField_pairField .sp⟩⟩

/-! ### The five patterns (R66, R67) -/

theorem isMovePattern_iff (op : Byte) : isMovePattern op = true ↔ op.toNat / 64 = 1 := by
  revert op; decide

theorem isImmediatePattern_iff (op : Byte) : isImmediatePattern op = true ↔ op.toNat / 64 = 0 ∧ op.toNat % 8 = 6 := by
  revert op; decide

theorem isPairPattern_iff (op : Byte) : isPairPattern op = true ↔ op.toNat / 64 = 0 ∧ op.toNat % 16 = 1 := by
  revert op; decide

theorem isLoadPattern_iff (op : Byte) : isLoadPattern op = true ↔ op = 0x3A#8 := beq_iff_eq

theorem isStorePattern_iff (op : Byte) : isStorePattern op = true ↔ op = 0x32#8 := beq_iff_eq

/-- R67's own argument: bits 7:6 tell pattern 1 from the others, and bits 2:0 tell these apart. -/
theorem count_patterns_le_one (op : Byte) :
    [isMovePattern op, isImmediatePattern op, isPairPattern op, isLoadPattern op, isStorePattern op].count true ≤ 1 := by
  simp only [List.count_cons, List.count_nil, beq_iff_eq, isMovePattern_iff, isImmediatePattern_iff, isPairPattern_iff,
    isLoadPattern_iff, isStorePattern_iff, ← BitVec.toNat_inj, BitVec.toNat_ofNat]
  split_ifs <;> omega

/-! ### The shape that a pattern decides -/

theorem decodeShape_of_isMovePattern {op : Byte} (h : isMovePattern op = true) :
    decodeShape op = if regOfField (fieldD op) = .m ∧ regOfField (fieldS op) = .m then .hlt
      else .mov (regOfField (fieldD op)) (regOfField (fieldS op)) := by
  rw [decodeShape, if_pos h]

theorem decodeShape_of_isImmediatePattern {op : Byte} (h : isImmediatePattern op = true) :
    decodeShape op = .mvi (regOfField (fieldD op)) := by
  have hmove : ¬ isMovePattern op = true := by
    rw [isImmediatePattern_iff] at h
    rw [isMovePattern_iff]
    omega
  rw [decodeShape, if_neg hmove, if_pos h]

theorem decodeShape_of_isPairPattern {op : Byte} (h : isPairPattern op = true) :
    decodeShape op = if pairOfField (fieldP op) = .sp then .lxiSp else .lxi (pairOfField (fieldP op)) := by
  obtain ⟨hmove, himm⟩ : ¬ isMovePattern op = true ∧ ¬ isImmediatePattern op = true := by
    rw [isPairPattern_iff] at h
    rw [isMovePattern_iff, isImmediatePattern_iff]
    omega
  rw [decodeShape, if_neg hmove, if_neg himm, if_pos h]

theorem decodeShape_of_isLoadPattern {op : Byte} (h : isLoadPattern op = true) : decodeShape op = .lda := by
  obtain rfl := (isLoadPattern_iff op).mp h
  rfl

theorem decodeShape_of_isStorePattern {op : Byte} (h : isStorePattern op = true) : decodeShape op = .sta := by
  obtain rfl := (isStorePattern_iff op).mp h
  rfl

/-- Among the bytes of the move pattern, both fields are M in 0x76 only. -/
theorem fields_eq_m_iff_of_isMovePattern {op : Byte} (h : isMovePattern op = true) :
    regOfField (fieldD op) = .m ∧ regOfField (fieldS op) = .m ↔ op = 0x76#8 := by
  rw [isMovePattern_iff] at h
  rw [regOfField_eq_m_iff, regOfField_eq_m_iff, fieldD_toNat, fieldS_toNat, ← BitVec.toNat_inj, BitVec.toNat_ofNat]
  omega

/-- Among the bytes of the pair pattern, the pair is SP in 0x31 only. -/
theorem field_eq_sp_iff_of_isPairPattern {op : Byte} (h : isPairPattern op = true) :
    pairOfField (fieldP op) = .sp ↔ op = 0x31#8 := by
  rw [isPairPattern_iff] at h
  rw [pairOfField_eq_sp_iff, fieldP_toNat, ← BitVec.toNat_inj, BitVec.toNat_ofNat]
  omega

/-- Settles O7, from the bit groups that tell the patterns apart and the shape that each pattern decides. -/
theorem patternsAreDisjoint : Obligations.PatternsAreDisjoint := by
  refine fun op => ⟨count_patterns_le_one op, fun h => ?_, decodeShape_of_isImmediatePattern, fun h => ?_,
    decodeShape_of_isLoadPattern, decodeShape_of_isStorePattern⟩
  · simp only [decodeShape_of_isMovePattern h, fields_eq_m_iff_of_isMovePattern h]
  · simp only [decodeShape_of_isPairPattern h, field_eq_sp_iff_of_isPairPattern h]

/-! ### The opcode map (R71) -/

theorem decodeShape_of_movValue {dst src : Reg} (h : ¬(dst = .m ∧ src = .m)) {op : Byte}
    (hop : op.toNat = 0x40 + 8 * (regField dst).toNat + (regField src).toNat) : decodeShape op = .mov dst src := by
  have hmove : isMovePattern op = true := by rw [isMovePattern_iff]; omega
  have hD : fieldD op = regField dst := BitVec.eq_of_toNat_eq (by rw [fieldD_toNat]; omega)
  have hS : fieldS op = regField src := BitVec.eq_of_toNat_eq (by rw [fieldS_toNat]; omega)
  rw [decodeShape_of_isMovePattern hmove, hD, hS, regOfField_regField, regOfField_regField, if_neg h]

theorem decodeShape_of_mviValue {r : Reg} {op : Byte} (hop : op.toNat = 0x06 + 8 * (regField r).toNat) :
    decodeShape op = .mvi r := by
  have himm : isImmediatePattern op = true := by rw [isImmediatePattern_iff]; omega
  have hD : fieldD op = regField r := BitVec.eq_of_toNat_eq (by rw [fieldD_toNat]; omega)
  rw [decodeShape_of_isImmediatePattern himm, hD, regOfField_regField]

theorem decodeShape_of_lxiValue {rp : Pair} (h : rp ≠ .sp) {op : Byte}
    (hop : op.toNat = 0x01 + 16 * (pairField rp).toNat) : decodeShape op = .lxi rp := by
  have hpair : isPairPattern op = true := by rw [isPairPattern_iff]; omega
  have hP : fieldP op = pairField rp := BitVec.eq_of_toNat_eq (by rw [fieldP_toNat]; omega)
  rw [decodeShape_of_isPairPattern hpair, hP, pairOfField_pairField, if_neg h]

/-- The bytes that fall through the five tests are the 178 that R68 lists. -/
theorem decodeShape_eq_unrec_iff (op : Byte) : decodeShape op = .unrec op ↔ isUnrecByte op = true := by
  constructor
  · intro h
    have hwf : (decode op 0 0).wf = true := decode_wf op 0 0
    rwa [decode, h] at hwf
  · intro h
    have hnone := unrec_of_no_pattern op
    simp only [h, Bool.not_true, Bool.or_eq_false_iff] at hnone
    simp [decodeShape, hnone]

/-- Settles O6: the closed forms by the values of their fields, the four single bytes by evaluation, and the fall-through. -/
theorem opcodeMap : Obligations.OpcodeMap := by
  refine ⟨fun dst src h => decodeShape_of_movValue h ?_, rfl, fun r => decodeShape_of_mviValue ?_,
    fun rp h => decodeShape_of_lxiValue h ?_, rfl, rfl, rfl, decodeShape_eq_unrec_iff⟩
  all_goals
    rw [BitVec.toNat_ofNat]
    omega

/-! ### Unused operand bytes (R69) -/

theorem decode_of_operandCount_eq_zero {op : Byte} (h : operandCount (decodeShape op) = 0) (arg1 arg2 : Byte) :
    decode op arg1 arg2 = decode op 0 0 := by
  simpa [h] using decode_unused op arg1 arg2

theorem decode_of_operandCount_eq_one {op : Byte} (h : operandCount (decodeShape op) = 1) (arg1 arg2 : Byte) :
    decode op arg1 arg2 = decode op arg1 0 := by
  simpa [h] using decode_unused op arg1 arg2

/-- Settles O8: an operand byte that the shape does not use may as well be 0, and 0 is the command's default. -/
theorem unusedOperandsAreIgnored : Obligations.UnusedOperandsAreIgnored := by
  refine ⟨fun op arg1 arg2 other1 other2 => ⟨fun h => ?_, fun h => ?_⟩, fun op arg1 => ⟨rfl, rfl⟩⟩
  · rw [decode_of_operandCount_eq_zero h arg1 arg2, decode_of_operandCount_eq_zero h other1 other2]
  · rw [decode_of_operandCount_eq_one h arg1 arg2, decode_of_operandCount_eq_one h arg1 other2]

end Sys2Proof
end

section
/-! PROOF. Decode dispatch (R80, R82): an opcode byte that matches no pattern is the instruction without effect, and `execute`
does not see the input still to come. -/

namespace Sys2Proof.Machine

/-! ### The fall-through (R82) -/

/-- The five tests fail one after the other, so the last branch of R66 is taken. -/
theorem decodeShape_of_no_pattern {op : Byte} (hmove : isMovePattern op = false) (himm : isImmediatePattern op = false)
    (hpair : isPairPattern op = false) (hload : isLoadPattern op = false) (hstore : isStorePattern op = false) :
    decodeShape op = .unrec op := by
  rw [decodeShape, if_neg (Bool.eq_false_iff.mp hmove), if_neg (Bool.eq_false_iff.mp himm),
    if_neg (Bool.eq_false_iff.mp hpair), if_neg (Bool.eq_false_iff.mp hload), if_neg (Bool.eq_false_iff.mp hstore)]

theorem decode_of_shape_unrec {op : Byte} (h : decodeShape op = .unrec op) (arg1 arg2 : Byte) :
    decode op arg1 arg2 = .unrec op := by
  rw [decode, h, withOperands]

/-- Settles O22: no pattern, so the decoder gives `UNREC`, whose effect is to answer the state it was given. -/
theorem unrecognisedOpcodeChangesNothing : Obligations.UnrecognisedOpcodeChangesNothing := by
  refine fun op arg1 arg2 s => ⟨fun hmove himm hpair hload hstore => ?_, exec_unrec op s⟩
  have hdecode : decode op arg1 arg2 = .unrec op :=
    decode_of_shape_unrec (decodeShape_of_no_pattern hmove himm hpair hload hstore) arg1 arg2
  exact ⟨hdecode, by rw [execute, hdecode, exec_unrec]⟩

/-! ### The input still to come (R80) -/

/-- Replaces what the driver and the host will do next, and nothing else. -/
def setInput (cs : List Command) (acts : List HostAction) (s : State) : State :=
  { s with commands := cs, hostActions := acts }

theorem unseenUpdate_setInput (cs : List Command) (acts : List HostAction) : UnseenUpdate (setInput cs acts) where
  reads_reg _ _ := rfl
  reads_mem _ _ := rfl
  keeps_config _ := rfl
  writes_reg _ _ _ := rfl
  writes_mem _ _ _ := rfl

theorem exec_setInput {i : Instr} {s t : State} (h : exec i s = .next t) (cs : List Command) (acts : List HostAction) :
    exec i (setInput cs acts s) = .next (setInput cs acts t) :=
  (unseenUpdate_setInput cs acts).exec_next h fun _ _ _ _ => rfl

/-- Settles O29: what the decoder gives is well-formed and so answers a next state, and a change of the input before the
instruction is the same change after it, which no field of the Processor State sees. -/
theorem executeIsTotal : Obligations.ExecuteIsTotal := by
  intro op arg1 arg2 s
  obtain ⟨t, ht⟩ := execute_next op arg1 arg2 s
  exact ⟨t, ht, fun cs acts => ⟨setInput cs acts t, exec_setInput ht cs acts, rfl, rfl, rfl, rfl⟩⟩

end Sys2Proof.Machine
end

section
/-! PROOF. The register move and the HALT placeholder (R90, R91, R135): `MOV` with `M_INDIRECT = false` is one register write,
and `HLT` is the identity, so that it drops out of every sequence of triples. -/

namespace Sys2Proof.Machine

/-! ### The frame of `writeReg` -/

theorem sameRegsExcept_writeReg (s : State) (r : Reg) (v : Byte) : SameRegsExcept [r] s (writeReg s r v) :=
  fun _ hr => readReg_writeReg_of_ne s v (List.ne_of_not_mem_cons hr)

theorem samePointers_writeReg (s : State) (r : Reg) (v : Byte) : SamePointers s (writeReg s r v) :=
  ⟨writeReg_pc s r v, writeReg_sp s r v⟩

theorem sameMemExcept_writeReg (s : State) (r : Reg) (v : Byte) : SameMemExcept [] s (writeReg s r v) :=
  fun a _ => memRead_writeReg s r v a

/-! ### `MOV` without `M_INDIRECT` (R90) -/

/-- With `M_INDIRECT = false` every register index means its register, index 6 included (R22). -/
theorem isIndirect_of_not_mIndirect {s : State} (h : s.config.mIndirect = false) (r : Reg) : isIndirect s r = false := by
  rw [isIndirect, h, Bool.false_and]

theorem exec_mov_of_not_mIndirect {s : State} (h : s.config.mIndirect = false) (dst src : Reg) :
    exec (.mov dst src) s = .next (writeReg s dst (readReg s src)) := by
  rw [exec_mov, readOperand_direct (isIndirect_of_not_mIndirect h src),
    writeOperand_direct (isIndirect_of_not_mIndirect h dst)]

theorem decode_of_shape_mov {op : Byte} {dst src : Reg} (h : decodeShape op = .mov dst src) (arg1 arg2 : Byte) :
    decode op arg1 arg2 = .mov dst src := by
  rw [decode, h, withOperands]

/-- Settles O14: the byte's shape is in the opcode map, and the effect is one register write, whose frame is the frame asked. -/
theorem movCopiesOneRegister : Obligations.MovCopiesOneRegister := by
  intro dst src arg1 arg2 s hne hdirect
  obtain ⟨hshape, -⟩ := opcodeMap
  refine ⟨decode_of_shape_mov (hshape dst src hne) arg1 arg2, rfl,
    writeReg s dst (readReg s src), exec_mov_of_not_mIndirect hdirect dst src, ?_⟩
  exact ⟨readReg_writeReg_same s dst _, sameRegsExcept_writeReg s dst _, samePointers_writeReg s dst _,
    sameMemExcept_writeReg s dst _⟩

/-! ### `HLT` (R91, R135) -/

theorem decode_hlt (arg1 arg2 : Byte) : decode 0x76#8 arg1 arg2 = .hlt := rfl

theorem execute_hlt (arg1 arg2 : Byte) (s : State) : execute 0x76#8 arg1 arg2 s = .next s := by
  rw [execute, decode_hlt, exec_hlt]

/-- A sequence whose first triple answers `t` goes on from `t`. -/
theorem executeAll_cons_of_next {op arg1 arg2 : Byte} {s t : State} (h : execute op arg1 arg2 s = .next t)
    (rest : List (Byte × Byte × Byte)) : executeAll ((op, arg1, arg2) :: rest) s = executeAll rest t := by
  rw [executeAll, h]

/-- Settles O13: `execute` of `HLT` answers the state it was given, so the sequence goes on from there. -/
theorem hltChangesNothing : Obligations.HltChangesNothing := fun arg1 arg2 s =>
  ⟨decode_hlt arg1 arg2, rfl, exec_hlt s, fun op b1 b2 =>
    executeAll_cons_of_next (execute_hlt arg1 arg2 s) [(op, b1, b2)]⟩

end Sys2Proof.Machine
end

section
/-! PROOF. The immediate loads (R100 to R103): `MVI` with `M_INDIRECT = false` is one register write, `LXI SP` is one write of
the stack pointer, and `LXI` with another pair is the write of two different registers. -/

namespace Sys2Proof.Machine

/-! ### `MVI` without `M_INDIRECT` (R100) -/

theorem exec_mvi_of_not_mIndirect {s : State} (h : s.config.mIndirect = false) (r : Reg) (arg1 : Byte) :
    exec (.mvi r arg1) s = .next (writeReg s r arg1) := by
  rw [exec_mvi, writeOperand_direct (isIndirect_of_not_mIndirect h r)]

theorem decode_of_shape_mvi {op : Byte} {r : Reg} (h : decodeShape op = .mvi r) (arg1 arg2 : Byte) :
    decode op arg1 arg2 = .mvi r arg1 := by
  rw [decode, h, withOperands]

/-- Settles O15: the byte's shape is in the opcode map, and the effect is one register write, whose frame is the frame asked. -/
theorem mviLoadsOneRegister : Obligations.MviLoadsOneRegister := by
  intro r arg1 arg2 s hdirect
  obtain ⟨-, -, hshape, -⟩ := opcodeMap
  refine ⟨decode_of_shape_mvi (hshape r) arg1 arg2, rfl,
    writeReg s r arg1, exec_mvi_of_not_mIndirect hdirect r arg1, ?_⟩
  exact ⟨readReg_writeReg_same s r arg1, sameRegsExcept_writeReg s r arg1, samePointers_writeReg s r arg1,
    sameMemExcept_writeReg s r arg1⟩

/-! ### `LXI SP` (R102) -/

theorem decode_lxiSp (arg1 arg2 : Byte) : decode 0x31#8 arg1 arg2 = .lxiSp arg1 arg2 := rfl

theorem sameRegsExcept_setSp (s : State) (w : Word) : SameRegsExcept [] s (setSp s w) :=
  fun r _ => readReg_setSp s w r

theorem sameMemExcept_setSp (s : State) (w : Word) : SameMemExcept [] s (setSp s w) :=
  fun a _ => memRead_setSp s w a

/-- Settles O16: the effect is one write of the stack pointer, whose value is the immediate with `arg2` as its high byte. -/
theorem lxiSpLoadsStackPointer : Obligations.LxiSpLoadsStackPointer := fun arg1 arg2 s =>
  ⟨decode_lxiSp arg1 arg2, rfl, setSp s (immediate16 arg1 arg2), exec_lxiSp arg1 arg2 s, immediate16_toNat arg1 arg2,
    setSp_pc s _, sameRegsExcept_setSp s _, sameMemExcept_setSp s _⟩

/-! ### `LXI` with BC, DE or HL (R101, R103) -/

theorem decode_of_shape_lxi {op : Byte} {rp : Pair} (h : decodeShape op = .lxi rp) (arg1 arg2 : Byte) :
    decode op arg1 arg2 = .lxi rp arg1 arg2 := by
  rw [decode, h, withOperands]

/-- The resolver gives the registers of index `2P` and `2P + 1` (R103). -/
theorem regField_of_getRpIndices {rp : Pair} {high low : Reg} (h : getRpIndices rp = .ok (high, low)) :
    (regField high).toNat = 2 * (pairField rp).toNat ∧ (regField low).toNat = 2 * (pairField rp).toNat + 1 := by
  cases rp with
  | bc => cases h; decide
  | de => cases h; decide
  | hl => cases h; decide
  | sp => cases h

/-- Outside the two registers of its pair, `LXI` changes nothing: its effect is two register writes, one after the other. -/
theorem exec_lxi_frame {rp : Pair} {high low : Reg} (h : getRpIndices rp = .ok (high, low)) {arg1 arg2 : Byte}
    {s t : State} (ht : exec (.lxi rp arg1 arg2) s = .next t) :
    SameRegsExcept [high, low] s t ∧ SamePointers s t ∧ SameMemExcept [] s t := by
  rw [exec_lxi h] at ht
  cases ht
  have hwrite : FixedWrite [high, low] [] false (fun u => writeReg (writeReg u low arg1) high arg2) :=
    (fixedWrite_nothing.then_writeReg low arg1).then_writeReg high arg2
  exact ⟨hwrite.other_regs s, ⟨hwrite.same_pc s, hwrite.same_sp rfl s⟩, hwrite.other_cells s⟩

/-- Settles O17: the byte's shape is in the opcode map, the resolver names the two registers, and `LXI` writes these and
nothing else. -/
theorem lxiLoadsBothRegistersOfThePair : Obligations.LxiLoadsBothRegistersOfThePair := by
  intro rp arg1 arg2 s hne
  obtain ⟨-, -, -, hshape, -⟩ := opcodeMap
  obtain ⟨⟨high, low⟩, hpair⟩ := getRpIndices_ok rp hne
  obtain ⟨hhigh, hlow⟩ := regField_of_getRpIndices hpair
  obtain ⟨t, ht, hreadHigh, hreadLow⟩ := exec_lxi_reads hpair arg1 arg2 s
  exact ⟨decode_of_shape_lxi (hshape rp hne) arg1 arg2, rfl, high, low, t, hpair, hhigh, hlow, ht, hreadHigh, hreadLow,
    exec_lxi_frame hpair ht⟩

end Sys2Proof.Machine
end

section
/-! PROOF. The direct load and the direct store (R110 to R112): `LDA` is one register write, `STA` is one memory write, and a
cell keeps its byte along every sequence of triples that does not store to it. -/

namespace Sys2Proof.Machine

/-! ### `LDA` (R110) -/

theorem decode_lda (arg1 arg2 : Byte) : decode 0x3A#8 arg1 arg2 = .lda arg1 arg2 := rfl

theorem execute_lda (arg1 arg2 : Byte) (s : State) :
    execute 0x3A#8 arg1 arg2 s = .next (writeReg s .a (memRead s (directAddress arg1 arg2))) := by
  rw [execute, decode_lda, exec_lda]

/-- Settles O19: the effect is one write of A, whose frame is the frame asked. -/
theorem ldaLoadsA : Obligations.LdaLoadsA := by
  refine fun arg1 arg2 s => ⟨decode_lda arg1 arg2, rfl,
    writeReg s .a (memRead s (directAddress arg1 arg2)), exec_lda arg1 arg2 s, ?_⟩
  exact ⟨readReg_writeReg_same s .a _, sameRegsExcept_writeReg s .a _, samePointers_writeReg s .a _,
    sameMemExcept_writeReg s .a _⟩

/-! ### `STA` (R111) -/

theorem decode_sta (arg1 arg2 : Byte) : decode 0x32#8 arg1 arg2 = .sta arg1 arg2 := rfl

theorem execute_sta (arg1 arg2 : Byte) (s : State) :
    execute 0x32#8 arg1 arg2 s = .next (memWrite s (directAddress arg1 arg2) (readReg s .a)) := by
  rw [execute, decode_sta, exec_sta]

/-- Settles O20: the effect is one write of the cell at the direct address, whose frame is the frame asked. -/
theorem staStoresA : Obligations.StaStoresA := by
  refine fun arg1 arg2 s => ⟨decode_sta arg1 arg2, rfl,
    memWrite s (directAddress arg1 arg2) (readReg s .a), exec_sta arg1 arg2 s, ?_⟩
  exact ⟨memRead_memWrite_same s _ _, sameMemExcept_memWrite s _ _, sameRegsExcept_memWrite s _ _,
    samePointers_memWrite s _ _⟩

/-! ### Sequences that do not store to a cell (R112) -/

/-- A sequence that answers `t` is followed by the rest of the triples from `t`. -/
theorem executeAll_append_of_next {triples : List (Byte × Byte × Byte)} {s t : State}
    (h : executeAll triples s = .next t) (rest : List (Byte × Byte × Byte)) :
    executeAll (triples ++ rest) s = executeAll rest t := by
  induction triples generalizing s with
  | nil => cases h; rfl
  | cons triple triples ih =>
    obtain ⟨op, arg1, arg2⟩ := triple
    obtain ⟨u, hu, hut⟩ := executeAll_cons h
    rw [List.cons_append, executeAll_cons_of_next hu, ih hut]

/-- A cell that the access matrix does not list as written keeps its byte. -/
theorem execute_next_memRead {a : Word} {op arg1 arg2 : Byte} {s : State}
    (h : a ∉ (accessOf (decode op arg1 arg2) s).writesCells) :
    ∃ t, execute op arg1 arg2 s = .next t ∧ memRead t a = memRead s a := by
  obtain ⟨t, ht, ⟨-, hcells, -⟩, -⟩ := (followsRow_accessOf (decode_wf op arg1 arg2) s).access
  exact ⟨t, ht, hcells a h⟩

/-- The induction of R112: a sequence that does not store to the cell answers a state in which it holds the same byte. -/
theorem executeAll_next_memRead {a : Word} {triples : List (Byte × Byte × Byte)} {s : State}
    (h : NoStoreTo a triples s) : ∃ t, executeAll triples s = .next t ∧ memRead t a = memRead s a := by
  induction triples generalizing s with
  | nil => exact ⟨s, rfl, rfl⟩
  | cons triple triples ih =>
    obtain ⟨op, arg1, arg2⟩ := triple
    obtain ⟨hnot, hrest⟩ := h
    obtain ⟨u, hu, hkeepFirst⟩ := execute_next_memRead hnot
    obtain ⟨t, ht, hkeepRest⟩ := ih (hrest u hu)
    exact ⟨t, (executeAll_cons_of_next hu triples).trans ht, hkeepRest.trans hkeepFirst⟩

/-- Settles O21: the cell holds A right after the `STA`, keeps it along the sequence, and the `LDA` reads it back. -/
theorem storeLoadRoundTrip : Obligations.StoreLoadRoundTrip := by
  intro arg1 arg2 triples s u hsta hno
  obtain ⟨w, hw, hkeep⟩ := executeAll_next_memRead hno
  have hcell : memRead w (directAddress arg1 arg2) = readReg s .a := by
    rw [execute_sta] at hsta
    cases hsta
    rw [hkeep, memRead_memWrite_same]
  refine ⟨writeReg w .a (memRead w (directAddress arg1 arg2)), ?_, ?_, hcell⟩
  · rw [executeAll_cons_of_next hsta, executeAll_append_of_next hw, executeAll_cons_of_next (execute_lda arg1 arg2 w),
      executeAll]
  · rw [readReg_writeReg_same, hcell]

end Sys2Proof.Machine
end

section
/-! PROOF. The fetch sequencer (R121 to R129): a program step with no host action before it is a sequencer step, which is said
once for each number of operand bytes. Runs over memory of zeros are an induction over the number of steps. -/

namespace Sys2Proof.Machine

/-! ### A step in program mode (R121 to R124) -/

theorem step_program_of_no_hostActions {s : State} (hmode : s.config.driverMode = .program) (hacts : s.hostActions = []) :
    step s = sequencerStep s := by
  simp only [step, hmode, programStep, hacts]

/-- Settles O35: the step is the sequencer's, and its `execute` is `exec` of what the decoder gives, which is well-formed. -/
theorem programStepRunsTheFetchedInstruction : Obligations.ProgramStepRunsTheFetchedInstruction := by
  refine ⟨fun s hmode hacts => ⟨decode_wf _ _ _, ?_⟩, fun dst src r rp op => ?_, rfl⟩
  · rw [step_program_of_no_hostActions hmode hacts]
    rfl
  · exact ⟨rfl, rfl, rfl, rfl, rfl, rfl, rfl, rfl⟩

/-- Settles O38: the sequencer leaves the program counter at `nextPc`, whatever it executes. -/
theorem sequencerAdvancesPc : Obligations.SequencerAdvancesPc := by
  intro s hmode hacts
  obtain ⟨t, ht, hpc, -⟩ := sequencerStep_next s
  refine ⟨t, (step_program_of_no_hostActions hmode hacts).trans ht, ?_⟩
  rw [hpc, nextPc_toNat, Nat.add_assoc]
  rfl

/-! ### One and two operand bytes, and the top of memory (R122, R128) -/

theorem sequencerStep_of_count_eq_one {s : State} (h : operandCount (decodeShape (memRead s s.pc)) = 1) :
    sequencerStep s = exec (decode (memRead s s.pc) (memRead s (s.pc + 1)) 0) (setPc s (s.pc + 1 + 1)) := by
  rw [sequencerStep_of_shape rfl, fetchOpcode, h]
  rfl

theorem sequencerStep_of_count_eq_two {s : State} (h : operandCount (decodeShape (memRead s s.pc)) = 2) :
    sequencerStep s =
      exec (decode (memRead s s.pc) (memRead s (s.pc + 1)) (memRead s (s.pc + 2))) (setPc s (s.pc + 1 + 2)) := by
  rw [sequencerStep_of_shape rfl, fetchOpcode, h]
  rfl

/-- A two-byte operand of the opcode at 0xFFFF stands at 0x0000 and 0x0001. -/
theorem sequencerStep_at_top_of_count_eq_two {s : State} (h : operandCount (decodeShape (memRead s 0xFFFF#16)) = 2)
    (hpc : s.pc = 0xFFFF#16) :
    sequencerStep s =
      exec (decode (memRead s 0xFFFF#16) (memRead s 0x0000#16) (memRead s 0x0001#16)) (setPc s 0x0002#16) := by
  rw [sequencerStep_of_count_eq_two (hpc ▸ h), hpc]
  rfl

/-- Settles O39: the operand addresses and the next program counter wrap modulo 65536, and the example is the `STA` that the
wrapped bytes decode to. -/
theorem instructionsWrapAroundTheTop : Obligations.InstructionsWrapAroundTheTop := by
  refine ⟨fun s h hpc => ?_, fun s => sequencerStep_at_top_of_count_eq_two, fun s h hpc => ?_,
    fun s hop hlow hhigh hpc ha => ?_⟩
  · rw [sequencerStep_of_count_eq_two (hpc ▸ h), hpc]
    rfl
  · rw [sequencerStep_of_count_eq_one (hpc ▸ h), hpc]
    rfl
  · have hcount : operandCount (decodeShape (memRead s 0xFFFF#16)) = 2 := by rw [hop]; rfl
    have haddress : directAddress 0x10#8 0x00#8 = 0x0010#16 := by decide
    have hstep : sequencerStep s = .next (memWrite (setPc s 0x0002#16) 0x0010#16 0x11#8) := by
      rw [sequencerStep_at_top_of_count_eq_two hcount hpc, hop, hlow, hhigh, decode_sta, exec_sta, readReg_setPc, ha,
        haddress]
    exact ⟨_, hstep, memRead_memWrite_same _ _ _, memWrite_pc _ _ _, sameMemExcept_memWrite (setPc s 0x0002#16) _ _,
      sameRegsExcept_memWrite (setPc s 0x0002#16) _ _, memWrite_sp _ _ _⟩

/-! ### Unrecognised opcodes and memory of zeros (R127, R129) -/

theorem sequencerStep_of_isUnrecByte {s : State} (h : isUnrecByte (memRead s s.pc) = true) :
    sequencerStep s = .next (setPc s (s.pc + 1)) := by
  rw [sequencerStep_of_shape ((decodeShape_eq_unrec_iff _).mpr h), withOperands, exec_unrec, operandCount,
    BitVec.add_zero]

/-- Settles O40: the step moves the program counter by 1 and does nothing else. -/
theorem bytesAfterUnrecognisedAreOpcodes : Obligations.BytesAfterUnrecognisedAreOpcodes := fun s h =>
  ⟨setPc s (s.pc + 1), sequencerStep_of_isUnrecByte h, memRead_setPc s (s.pc + 1) (s.pc + 1),
    fun a _ => memRead_setPc s (s.pc + 1) a, fun r _ => readReg_setPc s (s.pc + 1) r⟩

theorem run_succ_of_step {s t : State} (h : step s = .next t) (k : Nat) :
    Host.Core.run core (k + 1) s = Host.Core.run core k t := by
  have hcore : core.step s = .next t := h
  simp only [Host.Core.run, hcore]

/-- The byte 0x00 is unrecognised, so a step over memory of zeros is a no-op of length 1. -/
theorem step_of_zero_memory {s : State} (hmode : s.config.driverMode = .program) (hacts : s.hostActions = [])
    (hzero : ∀ a, memRead s a = 0) : step s = .next (setPc s (s.pc + 1)) := by
  rw [step_program_of_no_hostActions hmode hacts]
  exact sequencerStep_of_isUnrecByte (by rw [hzero]; decide)

/-- Settles O41, by induction on the number of steps: the state after the first one meets the same hypotheses. -/
theorem zeroMemoryRunsForEver : Obligations.ZeroMemoryRunsForEver := by
  intro s k hmode hacts hzero
  induction k generalizing s with
  | zero => rw [BitVec.add_zero]; rfl
  | succ k ih =>
    have hrest := ih (setPc s (s.pc + 1)) hmode hacts hzero
    have hpc : s.pc + BitVec.ofNat 16 (k + 1) = s.pc + 1 + BitVec.ofNat 16 k := by
      rw [Nat.add_comm, BitVec.ofNat_add, ← BitVec.add_assoc]
      rfl
    rw [run_succ_of_step (step_of_zero_memory hmode hacts hzero), hrest, hpc]
    rfl

end Sys2Proof.Machine
end

section
/-! PROOF. The variant `M_INDIRECT = true` (R131 to R136): index 6 of `MOV` and `MVI` means the cell at H:L and every other index
its register, so that no instruction reads or writes slot 6. -/

namespace Sys2Proof.Machine

/-! ### Which operands are redirected (R131) -/

theorem isIndirect_m {s : State} (h : s.config.mIndirect = true) : isIndirect s .m = true :=
  (isIndirect_iff s .m).mpr ⟨h, rfl⟩

/-- In either variant an index other than 6 means its register. -/
theorem isIndirect_of_ne_m (s : State) {r : Reg} (h : r ≠ .m) : isIndirect s r = false :=
  Bool.eq_false_iff.mpr fun hr => h ((isIndirect_iff s r).mp hr).2

/-! ### The three redirected instructions (R132 to R134) -/

theorem exec_mov_from_m {s : State} (h : s.config.mIndirect = true) {dst : Reg} (hdst : dst ≠ .m) :
    exec (.mov dst .m) s = .next (writeReg s dst (memRead s (hlAddress s))) := by
  rw [exec_mov, readOperand_indirect (isIndirect_m h), writeOperand_direct (isIndirect_of_ne_m s hdst)]

theorem exec_mov_to_m {s : State} (h : s.config.mIndirect = true) {src : Reg} (hsrc : src ≠ .m) :
    exec (.mov .m src) s = .next (memWrite s (hlAddress s) (readReg s src)) := by
  rw [exec_mov, readOperand_direct (isIndirect_of_ne_m s hsrc), writeOperand_indirect (isIndirect_m h)]

theorem exec_mvi_to_m {s : State} (h : s.config.mIndirect = true) (arg1 : Byte) :
    exec (.mvi .m arg1) s = .next (memWrite s (hlAddress s) arg1) := by
  rw [exec_mvi, writeOperand_indirect (isIndirect_m h)]

/-- Settles O23: the effect is one register write of the byte at the old H:L, whose frame is the frame asked. -/
theorem movFromMemoryUnderVariant : Obligations.MovFromMemoryUnderVariant := by
  refine fun dst s hdst hvariant => ⟨_, exec_mov_from_m hvariant hdst, ?_⟩
  exact ⟨readReg_writeReg_same s dst _, sameRegsExcept_writeReg s dst _, samePointers_writeReg s dst _,
    sameMemExcept_writeReg s dst _⟩

/-- What both stores to H:L leave: the byte in that one cell, and everything else as it was. -/
theorem memWrite_hlAddress_effect (s : State) (v : Byte) :
    memRead (memWrite s (hlAddress s) v) (bytePair (readReg s .h) (readReg s .l)) = v ∧
      SameMemExcept [bytePair (readReg s .h) (readReg s .l)] s (memWrite s (hlAddress s) v) ∧
      SameRegsExcept [] s (memWrite s (hlAddress s) v) ∧ SamePointers s (memWrite s (hlAddress s) v) :=
  ⟨memRead_memWrite_same s _ v, sameMemExcept_memWrite s _ v, sameRegsExcept_memWrite s _ v, samePointers_memWrite s _ v⟩

/-- Settles O24: the effect is one write of the source register to the cell at H:L. -/
theorem movToMemoryUnderVariant : Obligations.MovToMemoryUnderVariant := fun src s hsrc hvariant =>
  ⟨_, exec_mov_to_m hvariant hsrc, memWrite_hlAddress_effect s (readReg s src)⟩

/-- Settles O25: the effect is one write of the immediate to the cell at H:L. -/
theorem mviToMemoryUnderVariant : Obligations.MviToMemoryUnderVariant := fun arg1 s hvariant =>
  ⟨_, exec_mvi_to_m hvariant arg1, memWrite_hlAddress_effect s arg1⟩

/-! ### Register writes that commute or change nothing -/

theorem writeReg_writeReg_m (s : State) {r : Reg} (h : r ≠ .m) (v w : Byte) :
    writeReg (writeReg s .m v) r w = writeReg (writeReg s r w) .m v := by
  cases r with
  | m => exact absurd rfl h
  | _ => rfl

/-- Writing a register with the value it holds changes nothing. -/
theorem writeReg_readReg (s : State) (r : Reg) : writeReg s r (readReg s r) = s := by
  cases r <;> rfl

/-! ### No instruction reads or writes slot 6 (R136) -/

theorem hlAddress_writeReg_m (s : State) (v : Byte) : hlAddress (writeReg s .m v) = hlAddress s := rfl

theorem isIndirect_writeReg (s : State) (r r' : Reg) (v : Byte) : isIndirect (writeReg s r v) r' = isIndirect s r' :=
  isIndirect_eq_of_config (writeReg_config s r v) r'

theorem readOperand_writeReg_m {s : State} (h : s.config.mIndirect = true) (v : Byte) (r : Reg) :
    readOperand (writeReg s .m v) r = readOperand s r := by
  by_cases hr : r = .m
  · subst hr
    have hs := isIndirect_m h
    rw [readOperand_indirect hs, readOperand_indirect ((isIndirect_writeReg s .m .m v).trans hs), hlAddress_writeReg_m,
      memRead_writeReg]
  · rw [readOperand_direct (isIndirect_of_ne_m _ hr), readOperand_direct (isIndirect_of_ne_m _ hr),
      readReg_writeReg_of_ne s v hr]

theorem writeOperand_writeReg_m {s : State} (h : s.config.mIndirect = true) (v : Byte) (r : Reg) (w : Byte) :
    writeOperand (writeReg s .m v) r w = writeReg (writeOperand s r w) .m v := by
  by_cases hr : r = .m
  · subst hr
    have hs := isIndirect_m h
    rw [writeOperand_indirect hs, writeOperand_indirect ((isIndirect_writeReg s .m .m v).trans hs), hlAddress_writeReg_m]
    rfl
  · rw [writeOperand_direct (isIndirect_of_ne_m _ hr), writeOperand_direct (isIndirect_of_ne_m _ hr),
      writeReg_writeReg_m s hr]

theorem ne_m_of_getRpIndices {rp : Pair} {high low : Reg} (h : getRpIndices rp = .ok (high, low)) :
    high ≠ .m ∧ low ≠ .m := by
  cases rp <;> cases h <;> decide

/-- Under the variant an instruction commutes with a write of slot 6. -/
theorem exec_writeReg_m {i : Instr} {s t : State} (hvariant : s.config.mIndirect = true) (h : exec i s = .next t)
    (v : Byte) : exec i (writeReg s .m v) = .next (writeReg t .m v) := by
  cases i with
  | hlt => cases h; rfl
  | unrec op => cases h; rfl
  | mov dst src => cases h; rw [exec_mov, readOperand_writeReg_m hvariant, writeOperand_writeReg_m hvariant]
  | mvi r arg1 => cases h; rw [exec_mvi, writeOperand_writeReg_m hvariant]
  | lxiSp arg1 arg2 => cases h; rfl
  | lda arg1 arg2 => cases h; rw [exec_lda, memRead_writeReg, writeReg_writeReg_m s (by decide)]
  | sta arg1 arg2 => cases h; rfl
  | lxi rp arg1 arg2 =>
    cases hrp : getRpIndices rp with
    | ok p =>
      obtain ⟨hhigh, hlow⟩ := ne_m_of_getRpIndices hrp
      rw [exec_lxi hrp] at h ⊢
      cases h
      rw [writeReg_writeReg_m s hlow, writeReg_writeReg_m _ hhigh]
    | error f => simp [exec, execLxi, hrp] at h

/-- Writing slot 6 with the byte it holds changes nothing before the instruction, so nothing after it. -/
theorem exec_next_readReg_m {i : Instr} {s t : State} (hvariant : s.config.mIndirect = true) (h : exec i s = .next t) :
    readReg t .m = readReg s .m := by
  have hwrite := exec_writeReg_m hvariant h (readReg s .m)
  rw [writeReg_readReg, h] at hwrite
  have ht : t = writeReg t .m (readReg s .m) := Host.Outcome.next.inj hwrite
  rw [ht, readReg_writeReg_same]

/-! ### Slot 6 stays 0 (R136) -/

theorem exec_keeps_slotSixZero {i : Instr} {s t : State} (hs : SlotSixZero s) (h : exec i s = .next t) :
    SlotSixZero t := by
  intro hvariant
  obtain ⟨-, hconfig, -⟩ := exec_next_keeps h
  rw [hconfig] at hvariant
  exact (exec_next_readReg_m hvariant h).trans (hs hvariant)

@[simp] theorem readReg_startRun (image : List (Word × Byte)) (address : Option Word) (s : State) (r : Reg) :
    readReg (startRun image address s) r = 0 := by
  rw [readReg, startRun_regs]
  exact readReg_zeroAll s r

theorem step_keeps_slotSixZero {s t : State} (hs : SlotSixZero s) (h : step s = .next t) : SlotSixZero t := by
  rcases step_cases s with e | ⟨_, _, _, cs, e⟩ | ⟨_, e⟩ | ⟨_, e⟩ | ⟨image, address, _, e⟩ | ⟨acts, e⟩ <;> rw [e] at h
  · cases h; exact hs
  · exact exec_keeps_slotSixZero (s := { s with commands := cs }) hs h
  · cases h; exact fun _ => readReg_zeroAll _ .m
  · cases h; exact fun _ => readReg_zeroAll _ .m
  · cases h; exact fun _ => readReg_startRun image address _ .m
  · exact exec_keeps_slotSixZero (s := setPc { s with hostActions := acts } (nextPc { s with hostActions := acts })) hs h

theorem inspectReg_m (s : State) : inspectReg s 'M' = some (readReg s .m) := rfl

/-- Settles O27: an instruction commutes with a write of slot 6, which also says that it keeps the slot; every step keeps
`SlotSixZero`; and the name M shows the slot. -/
theorem slotSixIsUnusedUnderVariant : Obligations.SlotSixIsUnusedUnderVariant := by
  refine ⟨fun i s t v _ hvariant h => ?_, fun s t => step_keeps_slotSixZero, fun s hvariant hs => ?_⟩
  · exact ⟨exec_next_readReg_m hvariant h, exec_writeReg_m hvariant h v⟩
  · rw [inspectReg_m, hs hvariant]

end Sys2Proof.Machine
end

section
/-! PROOF. The one kind of outcome (R142): `execute` runs an instruction that the decoder gives, which is well-formed, and no
other case of a step can end otherwise. -/

namespace Sys2Proof.Machine

/-- Every case of a step is a next state outright, an `execute`, or a sequencer step. -/
theorem step_next (s : State) : ∃ t, step s = .next t := by
  rcases step_cases s with e | ⟨op, arg1, arg2, cs, e⟩ | ⟨_, e⟩ | ⟨_, e⟩ | ⟨_, _, _, e⟩ | ⟨acts, e⟩
  · exact ⟨_, e⟩
  · obtain ⟨t, ht⟩ := execute_next op arg1 arg2 { s with commands := cs }
    exact ⟨t, e.trans ht⟩
  · exact ⟨_, e⟩
  · exact ⟨_, e⟩
  · exact ⟨_, e⟩
  · obtain ⟨t, ht, -⟩ := sequencerStep_next { s with hostActions := acts }
    exact ⟨t, e.trans ht⟩

/-- Settles O32: the cases of a step for the one half, the commands of the input surface for the other. -/
theorem everyStepAnswersNextState : Obligations.EveryStepAnswersNextState := by
  refine ⟨step_next, fun c s => ?_⟩
  obtain ⟨t, ht, -⟩ := performCommand_next c s
  exact ⟨t, ht⟩

end Sys2Proof.Machine
end

section
/-! PROOF. The round trip of the encoding (30_encoding.md sections 1, 2 and 5): the opcode byte of a well-formed instruction
selects the instruction's own shape, and the decoder takes as many operand bytes as the encoder writes. -/

namespace Sys2Proof

/-! ### The shape of an instruction -/

/-- The shape that remains of an instruction without its operand bytes. -/
def Instr.shape : Instr → Shape
  | .hlt => .hlt
  | .mov dst src => .mov dst src
  | .mvi r _ => .mvi r
  | .lxiSp _ _ => .lxiSp
  | .lxi rp _ _ => .lxi rp
  | .lda _ _ => .lda
  | .sta _ _ => .sta
  | .unrec op => .unrec op

theorem opcodeOf_mov_toNat (dst src : Reg) :
    (opcodeOf (.mov dst src)).toNat = 0x40 + 8 * (regField dst).toNat + (regField src).toNat := by
  cases dst <;> cases src <;> rfl

theorem opcodeOf_mvi_toNat (r : Reg) (arg1 : Byte) :
    (opcodeOf (.mvi r arg1)).toNat = 0x06 + 8 * (regField r).toNat := by
  cases r <;> rfl

theorem opcodeOf_lxi_toNat (rp : Pair) (arg1 arg2 : Byte) :
    (opcodeOf (.lxi rp arg1 arg2)).toNat = 0x01 + 16 * (pairField rp).toNat := by
  cases rp <;> rfl

/-- The opcode byte alone selects the shape (R65): the fixed bytes stand in the opcode map, the closed forms by their value. -/
theorem decodeShape_opcodeOf {i : Instr} (hwf : i.wf = true) : decodeShape (opcodeOf i) = i.shape := by
  obtain ⟨-, hhlt, -, -, hlxiSp, hlda, hsta, hunrec⟩ := opcodeMap
  cases i with
  | hlt => exact hhlt
  | mov dst src =>
    have hne : ¬(dst = .m ∧ src = .m) := by simpa [Instr.wf, Decidable.imp_iff_not_or] using hwf
    exact decodeShape_of_movValue hne (opcodeOf_mov_toNat dst src)
  | mvi r arg1 => exact decodeShape_of_mviValue (opcodeOf_mvi_toNat r arg1)
  | lxiSp arg1 arg2 => exact hlxiSp
  | lxi rp arg1 arg2 =>
    have hne : rp ≠ .sp := by simpa [Instr.wf] using hwf
    exact decodeShape_of_lxiValue hne (opcodeOf_lxi_toNat rp arg1 arg2)
  | lda arg1 arg2 => exact hlda
  | sta arg1 arg2 => exact hsta
  | unrec op => exact (hunrec op).mpr hwf

/-! ### Operand bytes -/

theorem operandCount_shape (i : Instr) : operandCount i.shape = (operandBytes i).length := by
  cases i <;> rfl

/-- The operand bytes, wherever they stand at the front of a stream, complete the shape to the instruction. -/
theorem withOperands_shape (i : Instr) (rest : List Byte) :
    withOperands i.shape ((operandBytes i ++ rest).getD 0 0) ((operandBytes i ++ rest).getD 1 0) = i := by
  cases i <;> rfl

theorem operandBytes_withOperands (sh : Shape) (arg1 arg2 : Byte) :
    operandBytes (withOperands sh arg1 arg2) = [arg1, arg2].take (operandCount sh) := by
  cases sh <;> rfl

/-- A stream that is long enough begins with the operand bytes of what is decoded with it. -/
theorem operandBytes_append_drop {sh : Shape} {bytes : List Byte} (h : operandCount sh ≤ bytes.length) :
    operandBytes (withOperands sh (bytes.getD 0 0) (bytes.getD 1 0)) ++ bytes.drop (operandCount sh) = bytes := by
  rw [operandBytes_withOperands]
  rcases operandCount_cases sh with e | e | e <;> rw [e] at h ⊢
  · rfl
  · match bytes, h with
    | arg1 :: after, _ => rfl
  · match bytes, h with
    | arg1 :: arg2 :: after, _ => rfl

/-! ### The two directions of the round trip -/

/-- Decoding takes the encoding of a well-formed instruction off any stream. -/
theorem decodeStream_encode_append {i : Instr} (hwf : i.wf = true) (rest : List Byte) :
    decodeStream (encode i ++ rest) = .ok (i, rest) := by
  have hlong : ¬ (operandBytes i ++ rest).length < (operandBytes i).length := by
    rw [List.length_append]; omega
  rw [encode, List.cons_append, decodeStream_cons, decode, decodeShape_opcodeOf hwf, operandCount_shape, if_neg hlong,
    withOperands_shape, List.drop_left]

/-- Settles O10, from the shape that the opcode byte selects and the operand bytes that complete it. -/
theorem decodeOfEncode : Obligations.DecodeOfEncode := fun _ rest hwf => decodeStream_encode_append hwf rest

/-- Settles O11: the stream has an opcode byte, which the encoder gives back, and the operand bytes that were taken. -/
theorem encodeOfDecode : Obligations.EncodeOfDecode := by
  intro i bytes rest h
  cases bytes with
  | nil => cases h
  | cons op tail =>
    rw [decodeStream_cons] at h
    split at h
    · cases h
    · next hlong =>
      cases h
      refine ⟨decode_wf op _ _, ?_⟩
      rw [encode, opcodeOf_decode, List.cons_append, decode, operandBytes_append_drop (Nat.le_of_not_lt hlong)]

/-- Settles O9: each word is the encoding of its instruction, with nothing or, after `UNREC`, one byte left over. -/
theorem writtenOutWordsDecode : Obligations.WrittenOutWordsDecode :=
  ⟨decodeStream_encode_append (i := .hlt) rfl [], decodeStream_encode_append (i := .mov .b .a) rfl [],
    decodeStream_encode_append (i := .mov .m .l) rfl [], decodeStream_encode_append (i := .mvi .a 0x7B#8) rfl [],
    decodeStream_encode_append (i := .lxi .hl 0xBC#8 0x9A#8) rfl [],
    decodeStream_encode_append (i := .lxiSp 0xFE#8 0xFF#8) rfl [],
    decodeStream_encode_append (i := .lda 0x00#8 0x20#8) rfl [],
    decodeStream_encode_append (i := .sta 0x34#8 0x12#8) rfl [],
    decodeStream_encode_append (i := .unrec 0xC3#8) rfl [0x47#8]⟩

/-! ### Assembled programs -/

namespace Machine

theorem assemble_instr_cons (i : Instr) (rest : List Line) :
    assemble (.instr i :: rest) = encode i ++ assemble rest := rfl

theorem assemble_db_cons (n : Byte) (rest : List Line) : assemble (.db n :: rest) = n :: assemble rest := rfl

theorem assemble_append (before rest : List Line) :
    assemble (before ++ rest) = assemble before ++ assemble rest := by
  induction before with
  | nil => rfl
  | cons line before ih =>
    cases line with
    | instr i => rw [List.cons_append, assemble_instr_cons, assemble_instr_cons, ih, List.append_assoc]
    | db n => rw [List.cons_append, assemble_db_cons, assemble_db_cons, ih, List.cons_append]

/-- Settles O51: the bytes of the first line stand first, so that the round trip of the encoding applies to them. -/
theorem assembledProgramsDecodeLineByLine : Obligations.AssembledProgramsDecodeLineByLine := by
  refine ⟨fun i rest hwf => ?_, assemble_db_cons, assemble_append⟩
  rw [assemble_instr_cons, decodeStream_encode_append hwf]

end Machine

end Sys2Proof
end

section
/-! PROOF. Runs of the sequencer: a sequencer step is `exec` of the three bytes from the program counter on, so `HLT` goes on
(R126), a store is seen by the next fetch (20_memory.md section 4), and no run stops. -/

namespace Sys2Proof.Machine

/-! ### The sequencer on three given bytes (R122, R124) -/

/-- A byte that the opcode does not use may stand in the decoder's place for it. -/
theorem sequencerStep_of_bytes {s : State} {op arg1 arg2 : Byte} (hop : memRead s s.pc = op)
    (harg1 : memRead s (s.pc + 1) = arg1) (harg2 : memRead s (s.pc + 2) = arg2) :
    sequencerStep s =
      exec (decode op arg1 arg2) (setPc s (s.pc + 1 + BitVec.ofNat 16 (operandCount (decodeShape op)))) := by
  rw [sequencerStep_of_shape rfl, fetchOpcode, hop, harg1, harg2, decode_unused op arg1 arg2, decode]

theorem sequencerStep_hlt {s : State} (hop : memRead s s.pc = 0x76#8) :
    sequencerStep s = .next (setPc s (s.pc + 1)) := by
  have hcount : operandCount (decodeShape 0x76#8) = 0 := rfl
  rw [sequencerStep_of_bytes hop rfl rfl, decode_hlt, exec_hlt, hcount, BitVec.add_zero]

theorem sequencerStep_sta {s : State} (hop : memRead s s.pc = 0x32#8) :
    sequencerStep s =
      .next (memWrite (setPc s (s.pc + 3)) (directAddress (memRead s (s.pc + 1)) (memRead s (s.pc + 2))) (readReg s .a)) := by
  have hpc : s.pc + 1 + BitVec.ofNat 16 (operandCount (decodeShape 0x32#8)) = s.pc + 3 := BitVec.add_assoc s.pc 1 2
  rw [sequencerStep_of_bytes hop rfl rfl, decode_sta, exec_sta, hpc, readReg_setPc]

/-! ### The obligations on runs -/

theorem neverStops (s : State) : NeverStops s := by
  intro k
  obtain ⟨t, ht, -⟩ := run_induction (P := fun _ => True)
    (fun u _ => (step_next u).imp fun _ hu => ⟨hu, trivial⟩) k s trivial
  exact ⟨t, ht⟩

/-- Settles O33: neither `HLT` nor `UNREC` has an operand byte or an effect, and a run is a sequence of steps that all
answer. -/
theorem nothingEndsARun : Obligations.NothingEndsARun :=
  ⟨fun _ hop => hop.elim sequencerStep_hlt sequencerStep_of_isUnrecByte, neverStops⟩

/-- Settles O42: the operand bytes are read before the store, and the next fetch reads the memory after it. -/
theorem storeIsSeenByTheNextFetch : Obligations.StoreIsSeenByTheNextFetch := by
  intro s hmode hacts hop
  refine ⟨_, (step_program_of_no_hostActions hmode hacts).trans (sequencerStep_sta hop), rfl,
    memRead_memWrite_same _ _ _, fun hnext => ?_⟩
  rw [fetchOpcode, memWrite_pc, setPc_pc, hnext, memRead_memWrite_same]

/-! ### Placed instructions (log entry 4) -/

/-- The state with the three bytes of an instruction at the program counter. -/
def storeTriple (s : State) (op arg1 arg2 : Byte) : State :=
  memWrite (memWrite (memWrite s (s.pc + 2) arg2) (s.pc + 1) arg1) s.pc op

theorem pc_bytes_ne (pc : Word) : pc + 1 ≠ pc ∧ pc + 2 ≠ pc ∧ pc + 2 ≠ pc + 1 := by
  refine ⟨?_, ?_, ?_⟩ <;> bv_omega

theorem memRead_storeTriple (s : State) (op arg1 arg2 : Byte) :
    memRead (storeTriple s op arg1 arg2) s.pc = op ∧ memRead (storeTriple s op arg1 arg2) (s.pc + 1) = arg1 ∧
      memRead (storeTriple s op arg1 arg2) (s.pc + 2) = arg2 := by
  obtain ⟨h10, h20, h21⟩ := pc_bytes_ne s.pc
  refine ⟨memRead_memWrite_same _ _ _, ?_, ?_⟩
  · rw [storeTriple, memRead_memWrite_of_ne _ _ h10, memRead_memWrite_same]
  · rw [storeTriple, memRead_memWrite_of_ne _ _ h20, memRead_memWrite_of_ne _ _ h21, memRead_memWrite_same]

theorem sameMemExcept_storeTriple (s : State) (op arg1 arg2 : Byte) :
    SameMemExcept [s.pc, s.pc + 1, s.pc + 2] s (storeTriple s op arg1 arg2) := by
  intro a ha
  simp only [List.mem_cons, List.not_mem_nil, or_false, not_or] at ha
  obtain ⟨h0, h1, h2⟩ := ha
  rw [storeTriple, memRead_memWrite_of_ne _ _ h0, memRead_memWrite_of_ne _ _ h1, memRead_memWrite_of_ne _ _ h2]

/-- In call-driven mode the placed triple is the next command. -/
theorem step_placeInstruction_callDriven {s : State} (hmode : s.config.driverMode = .callDriven) (op arg1 arg2 : Byte) :
    step (placeInstruction s op arg1 arg2) = exec (decode op arg1 arg2) s := by
  simp only [placeInstruction, hmode, step, callStep, performCommand, execute]

/-- In program mode the next action is a sequencer step over the placed bytes. -/
theorem step_placeInstruction_program {s : State} (hmode : s.config.driverMode = .program) (op arg1 arg2 : Byte) :
    step (placeInstruction s op arg1 arg2) = sequencerStep (storeTriple s op arg1 arg2) := by
  simp only [placeInstruction, hmode, step, memWrite_config, programStep, performHostAction]
  rfl

/-- Settles O48: the placed triple is the next command, or the three bytes that the sequencer step fetches. -/
theorem placedInstructionRunsNext : Obligations.PlacedInstructionRunsNext := by
  refine fun s op arg1 arg2 => ⟨fun hmode => step_placeInstruction_callDriven hmode op arg1 arg2, fun hmode => ?_⟩
  obtain ⟨hop, harg1, harg2⟩ := memRead_storeTriple s op arg1 arg2
  refine ⟨_, (step_placeInstruction_program hmode op arg1 arg2).trans (sequencerStep_of_bytes hop harg1 harg2), ?_⟩
  exact ⟨rfl, rfl, rfl, ⟨rfl, rfl, rfl⟩, hop, harg1, harg2, sameMemExcept_storeTriple s op arg1 arg2⟩

end Sys2Proof.Machine
end

section
/-! PROOF. What every step keeps: the canonical form of memory (log entry 5), the configuration (log entry 1), and, where an
instruction or a reset is concerned, the input still to come. -/

namespace Sys2Proof.Machine

/-! ### Canonical memory -/

/-- An instruction leaves the list of cells alone or stores one byte to it. -/
theorem exec_keeps_canonicalMemory {i : Instr} {s t : State} (hs : CanonicalMemory s) (h : exec i s = .next t) :
    CanonicalMemory t := by
  rcases exec_next_cases h with rfl | ⟨_, _, rfl⟩ | ⟨_, _, _, _, _, -, rfl⟩ | ⟨_, rfl⟩ | ⟨a, v, rfl⟩
  · exact hs
  · exact hs
  · exact hs
  · exact hs
  · exact memWrite_wf a v hs

theorem step_keeps_canonicalMemory {s t : State} (hs : CanonicalMemory s) (h : step s = .next t) :
    CanonicalMemory t := by
  rcases step_cases s with e | ⟨_, _, _, cs, e⟩ | ⟨_, e⟩ | ⟨_, e⟩ | ⟨image, address, _, e⟩ | ⟨acts, e⟩ <;> rw [e] at h
  · cases h; exact hs
  · exact exec_keeps_canonicalMemory (s := { s with commands := cs }) hs h
  · cases h; exact zeroAll_wf _
  · cases h; exact zeroAll_wf _
  · cases h; exact startRun_wf image address _
  · exact exec_keeps_canonicalMemory (s := setPc { s with hostActions := acts } (nextPc { s with hostActions := acts })) hs h

/-- Settles O46, along the cases of a step: each keeps the cells, stores inside the address space, or begins from none. -/
theorem stepKeepsCanonicalMemory : Obligations.StepKeepsCanonicalMemory := fun _ _ => step_keeps_canonicalMemory

/-! ### The configuration and the input -/

/-- Settles O44: the case analysis of a step on the configuration was made for the program counter's invariant. -/
theorem configurationIsFixed : Obligations.ConfigurationIsFixed := fun _ _ => step_next_config

theorem sameInput_zeroAll (s : State) : SameInput s (zeroAll s) :=
  ⟨zeroAll_config s, zeroAll_commands s, zeroAll_hostActions s⟩

/-- Settles O45: none of the writes that an instruction can make is to these three fields, nor is the reset. -/
theorem instructionsLeaveConfigurationAndInput : Obligations.InstructionsLeaveConfigurationAndInput :=
  ⟨fun _ _ _ h => (exec_next_keeps h).2, sameInput_zeroAll⟩

/-- Settles O47: no cell is listed at reset, and slot 6 and the program counter are 0 whatever the configuration. -/
theorem invariantsHoldAtReset : Obligations.InvariantsHoldAtReset := fun _ => ⟨reset_wf, fun _ => rfl, fun _ => rfl⟩

end Sys2Proof.Machine
end

section
/-! PROOF. The storage (10_state.md section 8) and the reset (R160, R161): each write changes its own part of the Processor
State, and `zero_all` leaves one and the same. -/

namespace Sys2Proof.Machine

/-! ### Reset -/

theorem allZero_zeroAll (s : State) : AllZero (zeroAll s) :=
  ⟨zeroAll_pc s, zeroAll_sp s, readReg_zeroAll s, memRead_zeroAll s⟩

/-- `zero_all` reads no Processor State: states with the same configuration and input are reset to the same state. -/
theorem zeroAll_eq_of_sameInput {s u : State} (h : SameInput s u) : zeroAll u = zeroAll s := by
  obtain ⟨hconfig, hcommands, hacts⟩ := h
  rw [zeroAll, hconfig, hcommands, hacts]; rfl

theorem zeroAll_reset : zeroAll State.reset = State.reset := rfl

/-- Settles O3: `zero_all` leaves the machine at creation as it is, which is therefore all zero, and reads no Processor
State. -/
theorem creationStateIsAllZero : Obligations.CreationStateIsAllZero := by
  refine ⟨zeroAll_reset ▸ allZero_zeroAll State.reset, fun pc sp regs mem => ?_⟩
  exact (zeroAll_eq_of_sameInput (s := State.reset) ⟨rfl, rfl, rfl⟩).trans zeroAll_reset

/-- Settles O4: each field that `zero_all` writes is a constant. -/
theorem zeroAllZeroesEverything : Obligations.ZeroAllZeroesEverything := fun s _ =>
  ⟨allZero_zeroAll s, rfl, rfl, rfl, rfl⟩

/-! ### Registers, pointers and memory -/

/-- The whole effect of a register write on the Processor State. -/
theorem writeReg_effect (s : State) (r : Reg) (v : Byte) :
    readReg (writeReg s r v) r = v ∧ SameRegsExcept [r] s (writeReg s r v) ∧ SamePointers s (writeReg s r v) ∧
      SameMemExcept [] s (writeReg s r v) :=
  ⟨readReg_writeReg_same s r v, sameRegsExcept_writeReg s r v, samePointers_writeReg s r v, sameMemExcept_writeReg s r v⟩

/-- Settles O2: one frame for each write; with `M_INDIRECT = false` the operand M is a register. -/
theorem registersAndPointersAreDistinct : Obligations.RegistersAndPointersAreDistinct := by
  intro s r v w
  obtain ⟨hread, hregs, hpointers, hmem⟩ := writeReg_effect s r v
  refine ⟨⟨hread, hregs, hpointers, hmem, rfl, rfl, rfl⟩, setSp_sp s w, setSp_pc s w, sameRegsExcept_setSp s w,
    sameMemExcept_setSp s w, setPc_pc s w, setPc_sp s w, fun r' _ => readReg_setPc s w r', fun a _ => memRead_setPc s w a,
    fun hdirect => ?_⟩
  rw [writeOperand_direct (isIndirect_of_not_mIndirect hdirect .m)]
  exact sameMemExcept_writeReg s .m v

end Sys2Proof.Machine
end

section
/-! PROOF. Operands that are what their index says: registers other than M in either variant (R137), and the pairs that the
resolver answers (R103, R104). -/

namespace Sys2Proof.Machine

/-! ### Indices other than 6 in either variant (R137) -/

theorem exec_mov_of_ne_m (s : State) {dst src : Reg} (hdst : dst ≠ .m) (hsrc : src ≠ .m) :
    exec (.mov dst src) s = .next (writeReg s dst (readReg s src)) := by
  rw [exec_mov, readOperand_direct (isIndirect_of_ne_m s hsrc), writeOperand_direct (isIndirect_of_ne_m s hdst)]

theorem exec_mvi_of_ne_m (s : State) {r : Reg} (hr : r ≠ .m) (arg1 : Byte) :
    exec (.mvi r arg1) s = .next (writeReg s r arg1) := by
  rw [exec_mvi, writeOperand_direct (isIndirect_of_ne_m s hr)]

/-- Settles O26: both instructions are one register write there. -/
theorem otherIndicesAreNotRedirected : Obligations.OtherIndicesAreNotRedirected := fun dst src arg1 s hdst hsrc =>
  ⟨⟨_, exec_mov_of_ne_m s hdst hsrc, writeReg_effect s dst (readReg s src)⟩,
    ⟨_, exec_mvi_of_ne_m s hdst arg1, writeReg_effect s dst arg1⟩⟩

/-! ### The pair resolver (R103, R104) -/

/-- The term `LXI` with the pair SP is ill-formed, so the decoder never gives it. -/
theorem decode_ne_lxi_sp (op arg1 arg2 b1 b2 : Byte) : decode op arg1 arg2 ≠ .lxi .sp b1 b2 := by
  intro e
  have hwf := decode_wf op arg1 arg2
  rw [e] at hwf
  cases hwf

theorem execute_ne_fault (op arg1 arg2 : Byte) (s : State) (f : Fault) : execute op arg1 arg2 s ≠ .fault f := by
  obtain ⟨t, ht⟩ := execute_next op arg1 arg2 s
  rw [ht]
  exact nofun

/-- Settles O18: the values of the resolver, and that what the decoder gives is well-formed and so answers a next state. -/
theorem pairResolver : Obligations.PairResolver :=
  ⟨rfl, rfl, rfl, rfl, fun op arg1 arg2 s =>
    ⟨rfl, decode_ne_lxi_sp op arg1 arg2 arg1 arg2, execute_ne_fault op arg1 arg2 s⟩⟩

end Sys2Proof.Machine
end

section
/-! PROOF. The driver modes (R36, R125, 92_eei_decisions.md D7): what the next command or host action does, what a load writes,
and that memory changes by these and by stores only. -/

namespace Sys2Proof.Machine

/-! ### One equation for each mode and kind of input -/

theorem step_program {s : State} (hmode : s.config.driverMode = .program) : step s = programStep s := by
  rw [step, hmode]

theorem callStep_of_nil {s : State} (h : s.commands = []) : callStep s = .next s := by
  rw [callStep, h]

theorem callStep_of_cons {s : State} {c : Command} {rest : List Command} (h : s.commands = c :: rest) :
    callStep s = performCommand c { s with commands := rest } := by
  rw [callStep, h]

theorem programStep_of_nil {s : State} (h : s.hostActions = []) : programStep s = sequencerStep s := by
  rw [programStep, h]

theorem programStep_of_cons {s : State} {act : HostAction} {rest : List HostAction} (h : s.hostActions = act :: rest) :
    programStep s = performHostAction act { s with hostActions := rest } := by
  rw [programStep, h]

/-- Settles O34: the next command is taken off the list and performed, and what the decoder gives is well-formed. -/
theorem callDrivenStepRunsTheTriple : Obligations.CallDrivenStepRunsTheTriple := by
  intro s rest op arg1 arg2 hmode
  have hstep : ∀ cs, step { s with commands := cs } = callStep { s with commands := cs } := fun _ =>
    step_callDriven hmode
  refine ⟨decode_wf op arg1 arg2, ?_, ?_, ?_, ?_⟩
  · rw [hstep, callStep_of_cons rfl, performCommand, execute]
  · rw [hstep, callStep_of_cons rfl, performCommand]
  · rw [hstep, callStep_of_cons rfl, performCommand]
  · rw [hstep, callStep_of_nil rfl]

/-- The next host action is taken off the list and performed. -/
theorem step_of_hostAction {s : State} (hmode : s.config.driverMode = .program) (act : HostAction)
    (rest : List HostAction) :
    step { s with hostActions := act :: rest } = performHostAction act { s with hostActions := rest } :=
  (step_program (s := { s with hostActions := act :: rest }) hmode).trans (programStep_of_cons rfl)

theorem startRun_none (image : List (Word × Byte)) (s : State) : startRun image none s = loadImage (zeroAll s) image := by
  rw [startRun_eq, loadImage_eq (zeroAll s)]; rfl

theorem startRun_some (image : List (Word × Byte)) (address : Word) (s : State) :
    startRun image (some address) s = setPc (loadImage (zeroAll s) image) address := rfl

/-- Settles O36: each action is performed by its own operation; a run without a start address begins at the 0 of the reset. -/
theorem programStepPerformsHostAction : Obligations.ProgramStepPerformsHostAction := by
  intro s rest image address hmode
  refine ⟨?_, ?_, ?_, ?_⟩
  · rw [step_of_hostAction hmode, performHostAction]
  · rw [step_of_hostAction hmode, performHostAction, startRun_none]
  · rw [step_of_hostAction hmode, performHostAction, startRun_some]
  · rw [step_of_hostAction hmode, performHostAction]

/-! ### Loading an image (R125) -/

/-- A cell that the image names once holds its byte: no later pair of the image overwrites it. -/
theorem memRead_loadImage_of_mem {s : State} {image : List (Word × Byte)} (hnodup : (image.map Prod.fst).Nodup)
    {c : Word × Byte} (hc : c ∈ image) : memRead (loadImage s image) c.1 = c.2 := by
  induction image generalizing s with
  | nil => cases hc
  | cons d rest ih =>
    obtain ⟨hfirst, hrest⟩ := List.nodup_cons.mp hnodup
    rw [loadImage]
    rcases List.mem_cons.mp hc with rfl | hc
    · have habsent : ∀ e ∈ rest, e.1 ≠ c.1 := fun e he heq => hfirst (heq ▸ List.mem_map_of_mem he)
      rw [memRead_loadImage_of_absent _ _ _ habsent, memRead_memWrite_same]
    · exact ih hrest hc

theorem sameMemExcept_loadImage (s : State) (image : List (Word × Byte)) :
    SameMemExcept (image.map Prod.fst) s (loadImage s image) := fun a ha =>
  memRead_loadImage_of_absent s image a fun _ hc heq => ha (heq ▸ List.mem_map_of_mem hc)

/-- Settles O37: a named cell is written by its own pair last, and a load touches memory only. -/
theorem loadWritesTheImage : Obligations.LoadWritesTheImage := by
  refine fun s image hnodup => ⟨fun c hc => memRead_loadImage_of_mem hnodup hc, sameMemExcept_loadImage s image, ?_⟩
  rw [loadImage_eq]
  exact ⟨fun _ _ => rfl, ⟨rfl, rfl⟩, rfl, rfl, rfl⟩

/-! ### What changes memory in call-driven mode (20_memory.md section 5) -/

/-- With `M_INDIRECT = false` only `STA` has a cell to write in the access matrix. -/
theorem eq_sta_of_mem_writesCells {i : Instr} {s : State} {a : Word} (hdirect : s.config.mIndirect = false)
    (ha : a ∈ (accessOf i s).writesCells) : ∃ arg1 arg2, i = .sta arg1 arg2 ∧ directAddress arg1 arg2 = a := by
  have hreg := isIndirect_of_not_mIndirect hdirect
  cases i with
  | sta arg1 arg2 => exact ⟨arg1, arg2, rfl, (List.mem_singleton.mp ha).symm⟩
  | hlt => cases ha
  | unrec op => cases ha
  | lxiSp arg1 arg2 => cases ha
  | lda arg1 arg2 => cases ha
  | lxi rp arg1 arg2 => cases rp <;> cases ha
  | mov dst src => simp [accessOf, hreg, Access.none] at ha
  | mvi r arg1 => simp [accessOf, hreg, Access.none] at ha

theorem decode_eq_sta {op arg1 arg2 b1 b2 : Byte} (h : decode op arg1 arg2 = .sta b1 b2) :
    op = 0x32#8 ∧ arg1 = b1 ∧ arg2 = b2 := by
  obtain rfl : op = 0x32#8 := (opcodeOf_decode op arg1 arg2).symm.trans (congrArg opcodeOf h)
  rw [decode_sta] at h
  cases h
  exact ⟨rfl, rfl, rfl⟩

/-- With `M_INDIRECT = false` an `execute` that changes a cell is a `STA` to it. -/
theorem execute_changes_cell {op arg1 arg2 : Byte} {s t : State} {a : Word} (hdirect : s.config.mIndirect = false)
    (h : execute op arg1 arg2 s = .next t) (hne : memRead t a ≠ memRead s a) :
    op = 0x32#8 ∧ directAddress arg1 arg2 = a := by
  have hwrites : a ∈ (accessOf (decode op arg1 arg2) s).writesCells := by
    by_contra habsent
    obtain ⟨u, hu, hkeep⟩ := execute_next_memRead habsent
    rw [h] at hu
    cases hu
    exact hne hkeep
  obtain ⟨b1, b2, hsta, haddress⟩ := eq_sta_of_mem_writesCells hdirect hwrites
  obtain ⟨hop, rfl, rfl⟩ := decode_eq_sta hsta
  exact ⟨hop, haddress⟩

/-- Settles O43, command by command: with none the state stays, and an `EXECUTE` that changes a cell is a `STA` to it. -/
theorem onlyStaAndResetChangeMemory : Obligations.OnlyStaAndResetChangeMemory := by
  intro s t a hmode hdirect h hne
  rw [step_callDriven hmode] at h
  cases hcs : s.commands with
  | nil =>
    rw [callStep_of_nil hcs] at h
    cases h
    exact absurd rfl hne
  | cons c rest =>
    rw [callStep_of_cons hcs] at h
    refine ⟨c, rest, rfl, ?_⟩
    cases c with
    | zeroAll => exact .inl rfl
    | executeAndZeroAll op arg1 arg2 => exact .inr (.inl ⟨op, arg1, arg2, rfl⟩)
    | execute op arg1 arg2 =>
      obtain ⟨rfl, haddress⟩ := execute_changes_cell (s := { s with commands := rest }) hdirect h hne
      exact .inr (.inr ⟨arg1, arg2, rfl, haddress⟩)

/-! ### The host and the run under way (R125, R167, D7) -/

/-- The start of a run leaves all zero but the image and the start address. -/
theorem startRun_effect {image : List (Word × Byte)} (hnodup : (image.map Prod.fst).Nodup) (address : Option Word)
    (s : State) :
    (startRun image address s).pc = address.getD 0 ∧ (startRun image address s).sp = 0 ∧
      (∀ r, readReg (startRun image address s) r = 0) ∧
      (∀ c ∈ image, memRead (startRun image address s) c.1 = c.2) ∧
      (∀ a, a ∉ image.map Prod.fst → memRead (startRun image address s) a = 0) ∧
      SameInput s (startRun image address s) := by
  refine ⟨startRun_pc image address s, startRun_sp image address s, readReg_startRun image address s,
    fun c hc => ?_, fun a ha => ?_, startRun_config image address s, startRun_commands image address s,
    startRun_hostActions image address s⟩
  · rw [memRead_startRun, memRead_loadImage_of_mem hnodup hc]
  · rw [memRead_startRun, sameMemExcept_loadImage (zeroAll s) image a ha, memRead_zeroAll]

theorem startRun_eq_of_sameInput {s u : State} (h : SameInput s u) (image : List (Word × Byte)) (address : Option Word) :
    startRun image address u = startRun image address s := by
  rw [startRun, zeroAll_eq_of_sameInput h, startRun]

/-- Every host action but a sequencer step leaves a state that does not depend on the Processor State before it. -/
theorem performHostAction_eq_of_sameInput {act : HostAction} (hact : act ≠ .sequence) {s u : State}
    (h : SameInput s u) : performHostAction act u = performHostAction act s := by
  cases act with
  | zeroAll => rw [performHostAction, performHostAction, zeroAll_eq_of_sameInput h]
  | start image address => rw [performHostAction, performHostAction, startRun_eq_of_sameInput h]
  | sequence => exact absurd rfl hact

/-- A step in program mode is a sequencer step or does not depend on the Processor State before it. -/
theorem step_program_sequences_or_forgets {s : State} (hmode : s.config.driverMode = .program) :
    step s = sequencerStep { s with hostActions := s.hostActions.tail } ∨ ∀ u, SameInput s u → step u = step s := by
  rw [step_program hmode]
  cases hacts : s.hostActions with
  | nil =>
    left
    rw [programStep_of_nil hacts, List.tail_nil, ← hacts]
  | cons act rest =>
    rw [programStep_of_cons hacts]
    by_cases hact : act = .sequence
    · left
      rw [hact, performHostAction, List.tail_cons]
    · right
      intro u hu
      obtain ⟨hconfig, hcommands, hsame⟩ := hu
      rw [step_program (hconfig ▸ hmode), programStep_of_cons (hsame.trans hacts)]
      exact performHostAction_eq_of_sameInput hact ⟨hconfig, hcommands, rfl⟩

/-! ### Host actions do not exist in call-driven mode -/

/-- A change of the host's list before an instruction is the same change after it. -/
theorem execute_hostActions {op arg1 arg2 : Byte} {s t : State} (h : execute op arg1 arg2 s = .next t)
    (acts : List HostAction) :
    execute op arg1 arg2 { s with hostActions := acts } = .next { t with hostActions := acts } := by
  obtain ⟨-, -, hcommands, -⟩ := exec_next_keeps h
  have hinput : execute op arg1 arg2 { s with hostActions := acts } = .next (setInput s.commands acts t) :=
    exec_setInput h s.commands acts
  rw [hinput, setInput, ← hcommands]

theorem performCommand_hostActions {c : Command} {s t : State} (h : performCommand c s = .next t)
    (acts : List HostAction) :
    performCommand c { s with hostActions := acts } = .next { t with hostActions := acts } := by
  cases c with
  | execute op arg1 arg2 => exact execute_hostActions h acts
  | zeroAll => cases h; rfl
  | executeAndZeroAll op arg1 arg2 => cases h; rfl

theorem callStep_hostActions {s t : State} (h : callStep s = .next t) (acts : List HostAction) :
    callStep { s with hostActions := acts } = .next { t with hostActions := acts } := by
  cases hcs : s.commands with
  | nil =>
    rw [callStep_of_nil hcs] at h
    cases h
    rw [callStep_of_nil rfl, hcs]
  | cons c rest =>
    rw [callStep_of_cons hcs] at h
    rw [callStep_of_cons rfl, performCommand_hostActions h]

/-- Settles O52: what the start of a run leaves, which host actions forget the state before them, and that in call-driven
mode no instruction and no command sees the list of host actions. -/
theorem hostWritesOnlyAtTheStartOfARun : Obligations.HostWritesOnlyAtTheStartOfARun := by
  refine ⟨fun s rest image address hmode hnodup => ?_, fun s hmode => ?_, fun s acts hmode => ?_⟩
  · exact ⟨_, step_of_hostAction hmode (.start image address) rest, startRun_effect hnodup address _⟩
  · exact (step_program_sequences_or_forgets hmode).imp_right fun hforgets u hconfig hcommands hacts =>
      hforgets u ⟨hconfig, hcommands, hacts⟩
  · obtain ⟨t, ht⟩ := step_next s
    rw [step_callDriven hmode] at ht ⊢
    exact ⟨t, ht, (step_callDriven (s := { s with hostActions := acts }) hmode).trans (callStep_hostActions ht acts)⟩

end Sys2Proof.Machine
end

section
/-! PROOF. The inspection surface (R37, R38, 92_eei_decisions.md D10): names are looked up in the table, and a memory range goes
on at cell 0 after the last cell. -/

namespace Sys2Proof.Machine

/-! ### Registers by name -/

theorem inspectReg_of_listed {name : Char} {r : Reg} (h : (name, r) ∈ registerNames) (s : State) :
    inspectReg s name = some (readReg s r) := by
  obtain ⟨-, hsearch⟩ := registerNameTable
  rw [inspectReg, (hsearch name r).mpr h, Option.map_some]

theorem inspectReg_of_unlisted {name : Char} (h : ∀ r, (name, r) ∉ registerNames) (s : State) :
    inspectReg s name = none := by
  obtain ⟨-, hsearch⟩ := registerNameTable
  have hnone : searchName registerNames name = none :=
    Option.eq_none_iff_forall_ne_some.mpr fun r hr => h r ((hsearch name r).mp hr)
  rw [inspectReg, hnone, Option.map_none]

/-! ### Memory ranges -/

theorem length_inspectRange (s : State) (start : Word) (length : Nat) :
    (inspectRange s start length).length = length := by
  induction length generalizing start with
  | zero => rfl
  | succ n ih => rw [inspectRange, List.length_cons, ih]

theorem add_ofNat_succ (start : Word) (i : Nat) :
    start + BitVec.ofNat 16 (i + 1) = start + 1 + BitVec.ofNat 16 i := by
  rw [Nat.add_comm, BitVec.ofNat_add, ← BitVec.add_assoc]
  rfl

theorem getElem?_inspectRange (s : State) (start : Word) {length i : Nat} (h : i < length) :
    (inspectRange s start length)[i]? = some (memRead s (start + BitVec.ofNat 16 i)) := by
  induction length generalizing start i with
  | zero => omega
  | succ n ih =>
    rw [inspectRange]
    cases i with
    | zero => rw [List.getElem?_cons_zero, BitVec.add_zero]
    | succ i =>
      rw [List.getElem?_cons_succ, ih (start + 1) (Nat.lt_of_succ_lt_succ h), add_ofNat_succ]

/-- The address after `i` cells, as D10 writes it. -/
theorem add_ofNat_eq_mod (start : Word) (i : Nat) :
    start + BitVec.ofNat 16 i = BitVec.ofNat 16 ((start.toNat + i) % 65536) := by
  apply BitVec.eq_of_toNat_eq
  simp [BitVec.toNat_add]

/-- Settles O50: the search of the name table for the registers, and an induction on the length for the range. -/
theorem inspectionShowsTheState : Obligations.InspectionShowsTheState := by
  refine fun s start length name => ⟨rfl, rfl, fun r h => inspectReg_of_listed h s, fun h => inspectReg_of_unlisted h s,
    length_inspectRange s start length, fun i hi => ?_⟩
  rw [getElem?_inspectRange s start hi, add_ofNat_eq_mod]

end Sys2Proof.Machine
end
